-- ==== Sys2Proof/Word.lean ====
section
/-! DEFINITION. The value types of spec/00_scope.md rule R7 that are bits: bytes, 7-bit characters, the one-bit flag and the
sequences of them. A `Nat` or `Rat` of the spec is Lean's own `Nat` or `Rat`: unbounded and exact (decision D5). -/

namespace Sys2Proof

/-- `Byte` of rule R7: an unsigned integer 0..255. -/
abbrev Byte := BitVec 8

/-- `Char` of rule R7: a 7-bit code 0..127. -/
abbrev Char7 := BitVec 7

/-- `Bit` of rule R7. -/
abbrev Bit := BitVec 1

/-- `Bytes` of rule R7: a finite sequence of `Byte`, indexed from 0. -/
abbrev Bytes := List Byte

/-- `Str` of rule R7: a finite sequence of `Char`, indexed from 0. -/
abbrev Str := List Char7

end Sys2Proof
end

