-- ==== Sys2Proof/Config.lean ====
section
/-! DEFINITION. The implementation parameters of spec/00_scope.md rule R5, the host's parameters of
spec/70_reset_and_hazards.md rule R166 that are not times, and the two values the spec leaves open. -/

namespace Sys2Proof.Config

/-- The legal values of CFG.CHANNEL_COUNT (R5, R20). -/
abbrev legalChannelCounts : List Nat := [1, 2]

/-- STATUS_WIDTH of R5, in bits. -/
abbrev statusWidth : Nat := 8

/-- OPSEL_WIDTH of R5, in bits. -/
abbrev opselWidth : Nat := 4

/-- V_PREC of R5: decimal places of a voltage. -/
abbrev vPrec : Nat := 2

/-- I_PREC of R5: decimal places of a current. -/
abbrev iPrec : Nat := 3

/-- V_MAX_UNITS of R5: 99.99 in units of 0.01. -/
abbrev vMaxUnits : Nat := 9999

/-- I_MAX_UNITS of R5: 9.999 in units of 0.001. -/
abbrev iMaxUnits : Nat := 9999

/-- CURRENT_MAX_CHARS of R5. -/
abbrev currentMaxChars : Nat := 5

/-- ATTEMPTS of R5 and R166, a parameter of the host: attempts per query transaction and of the outer status loop. -/
abbrev attempts : Nat := 3

/-- The argument of the reset that `State.reset` stands after. DESIGN CHOICE (log 1, unsafe): R161 gives the count no
default. Every reset with either legal count is modelled by the RESET input. -/
def resetChannelCount : BitVec 2 := 1#2

/-- What stands in the two bits of CFG.CHANNEL_COUNT before the first accepted reset. R161: it "holds no value, and a
model must not read one from it"; so it is a free value (log 2, safe). -/
opaque channelCountBeforeReset : BitVec 2

end Sys2Proof.Config
end

