-- ==== Sys2Proof/Syntax.lean ====
section
/-! DEFINITION. The request of spec/10_state.md rule R24 as the host presents it (an OPSEL field and raw operand slots), and
`Instr`, one constructor per row of spec/opcode_table.json (spec/30_encoding.md rules R55 and R56), whose operands have the
types of rule R24. -/

namespace Sys2Proof

/-- A raw operand value on the request port: a number or a sequence of numbers. It can hold every value of every slot type
of R24, and values outside them, which R24 has the block refuse (log 7). -/
inductive Operand where
  /-- a single number: what CH, VAL, FLAG, K and SB carry -/
  | num (q : Rat)
  /-- a sequence of numbers: what BUF, S and READS carry -/
  | seq (qs : List Rat)
deriving DecidableEq, Repr

/-- The eight operand slots of R24. `none` is an absent slot; an absent K is K = none (log 7). -/
structure Slots where
  ch : Option Operand := none
  val : Option Operand := none
  flag : Option Operand := none
  buf : Option Operand := none
  s : Option Operand := none
  k : Option Operand := none
  sb : Option Operand := none
  reads : Option Operand := none
deriving DecidableEq, Repr

/-- A request (R24, R55): the 4-bit selector and the operand slots. -/
structure Request where
  opsel : BitVec 4
  slots : Slots := {}
deriving DecidableEq, Repr

/-- Why a request decodes to no instruction. -/
inductive Reject where
  /-- OPSEL 0xE or 0xF (R57) -/
  | reservedOp
  /-- the slots are not exactly the operation's, or a value is outside its slot's type (R24) -/
  | operand
deriving DecidableEq, Repr

/-- The 14 operations of R55 with the operands of R56. -/
inductive Instr where
  /-- ENC_IDN, R80 -/
  | encIdn
  /-- ENC_VSET, R81 -/
  | encVset (ch : Nat) (val : Rat)
  /-- ENC_ISET, R82 -/
  | encIset (ch : Nat) (val : Rat)
  /-- ENC_VSET_Q, R83 -/
  | encVsetQ (ch : Nat)
  /-- ENC_ISET_Q, R84 -/
  | encIsetQ (ch : Nat)
  /-- ENC_VOUT_Q, R85 -/
  | encVoutQ (ch : Nat)
  /-- ENC_IOUT_Q, R86 -/
  | encIoutQ (ch : Nat)
  /-- ENC_OUT, R87 -/
  | encOut (flag : Bit)
  /-- ENC_STATUS_Q, R88 -/
  | encStatusQ
  /-- DEC_TEXT, R100 -/
  | decText (buf : Bytes)
  /-- DEC_FLOAT, R101 -/
  | decFloat (s : Str) (k : Option Nat)
  /-- DEC_STATUS_RAW, R120 -/
  | decStatusRaw (buf : Bytes)
  /-- DEC_STATUS_FIELDS, R121 -/
  | decStatusFields (sb : Byte)
  /-- DECODE_STATUS, R130 -/
  | decodeStatus (sb : Byte) (reads : List Rat)
deriving DecidableEq, Repr

end Sys2Proof
end

