-- ==== Sys2Proof/WellFormed.lean ====
section
/-! DEFINITION. When a request is well formed: its OPSEL is not reserved, its slots are exactly those of
spec/30_encoding.md rule R56, and each value has its slot's type (spec/10_state.md rule R24). The operands of `Instr` are
typed, so every `Instr` is well formed; the check is about the request that encodes one. It is written from R24 and R56
alone and does not use the decoder. -/

namespace Sys2Proof

/-- The names of the operand slots (R24). -/
inductive SlotName where
  | ch | val | flag | buf | s | k | sb | reads
deriving DecidableEq, Repr

def SlotName.all : List SlotName := [.ch, .val, .flag, .buf, .s, .k, .sb, .reads]

def Slots.get (t : Slots) : SlotName → Option Operand
  | .ch => t.ch
  | .val => t.val
  | .flag => t.flag
  | .buf => t.buf
  | .s => t.s
  | .k => t.k
  | .sb => t.sb
  | .reads => t.reads

/-- The number is a `Nat` of R7. -/
def isNatNum (q : Rat) : Bool := q.den == 1 && decide (0 ≤ q.num)

/-- The number is a `Nat` below the bound. -/
def isNatNumBelow (bound : Nat) (q : Rat) : Bool := isNatNum q && decide (q.num.toNat < bound)

/-- The value has its slot's type, by the table of R24. -/
def SlotName.admits : SlotName → Operand → Bool
  | .ch, .num q => isNatNum q
  | .val, .num _ => true
  | .flag, .num q => isNatNumBelow 2 q
  | .buf, .seq qs => qs.all (isNatNumBelow 256)
  | .s, .seq qs => qs.all (isNatNumBelow 128)
  | .k, .num q => isNatNum q
  | .sb, .num q => isNatNumBelow 256 q
  | .reads, .seq _ => true
  | .ch, .seq _ => false
  | .val, .seq _ => false
  | .flag, .seq _ => false
  | .buf, .num _ => false
  | .s, .num _ => false
  | .k, .seq _ => false
  | .sb, .seq _ => false
  | .reads, .num _ => false

/-- The slots of each operation, the table of R56; `none` for the reserved selectors of R57. -/
def slotsOf (opsel : BitVec 4) : Option (List SlotName) :=
  match opsel.toNat with
  | 0 => some []
  | 1 => some [.ch, .val]
  | 2 => some [.ch, .val]
  | 3 => some [.ch]
  | 4 => some [.ch]
  | 5 => some [.ch]
  | 6 => some [.ch]
  | 7 => some [.flag]
  | 8 => some []
  | 9 => some [.buf]
  | 10 => some [.s, .k]
  | 11 => some [.buf]
  | 12 => some [.sb]
  | 13 => some [.sb, .reads]
  | _ => none

/-- The slot holds what the operation wants there: nothing if the operation does not take it, else a value of its type
(K may be absent: it is the optional max_chars). -/
def Slots.slotOk (t : Slots) (taken : List SlotName) (n : SlotName) : Bool :=
  match t.get n with
  | none => !(taken.contains n) || n == .k
  | some o => taken.contains n && n.admits o

/-- R24 and R57: the request stands for an operation with operands of its types. -/
def Request.wellFormed (r : Request) : Bool :=
  match slotsOf r.opsel with
  | none => false
  | some taken => SlotName.all.all (r.slots.slotOk taken)

end Sys2Proof
end

