-- ==== Sys2Proof/Decode.lean ====
section
/-! DEFINITION. The decoder of requests (spec/30_encoding.md rules R55 to R57, spec/10_state.md rule R24), total, rejecting by
name, and after it the encoder written from the same tables. -/

namespace Sys2Proof

/-! ## Operand values -/

/-- The number as a `Nat`. -/
def numNat (q : Rat) : Option Nat := if q.den = 1 ∧ 0 ≤ q.num then some q.num.toNat else none

/-- The number as an unsigned integer of `w` bits. -/
def numBits (w : Nat) (q : Rat) : Option (BitVec w) :=
  match numNat q with
  | some n => if n < 2 ^ w then some (BitVec.ofNat w n) else none
  | none => none

/-- Every number of a sequence as an unsigned integer of `w` bits. -/
def seqBits (w : Nat) : List Rat → Option (List (BitVec w))
  | [] => some []
  | q :: qs =>
    match numBits w q, seqBits w qs with
    | some b, some bs => some (b :: bs)
    | _, _ => none

/-- A slot of type `Nat`. -/
def slotNat : Option Operand → Option Nat
  | some (.num q) => numNat q
  | some (.seq _) => none
  | none => none

/-- A slot of type `Rat`. -/
def slotRat : Option Operand → Option Rat
  | some (.num q) => some q
  | some (.seq _) => none
  | none => none

/-- A slot of type `Opt Nat`: an absent slot is `none`. -/
def slotOptNat : Option Operand → Option (Option Nat)
  | some (.num q) => (numNat q).map some
  | some (.seq _) => none
  | none => some none

/-- A slot of a type of `w` bits: `Bit`, `Byte`. -/
def slotBits (w : Nat) : Option Operand → Option (BitVec w)
  | some (.num q) => numBits w q
  | some (.seq _) => none
  | none => none

/-- A slot of a sequence type: `Bytes`, `Str`. -/
def slotSeq (w : Nat) : Option Operand → Option (List (BitVec w))
  | some (.seq qs) => seqBits w qs
  | some (.num _) => none
  | none => none

/-- A slot of type sequence of `Rat`. -/
def slotRats : Option Operand → Option (List Rat)
  | some (.seq qs) => some qs
  | some (.num _) => none
  | none => none

/-! ## The decoder -/

/-- The operation that OPSEL selects, with its operands; `none` where the slots are not exactly those of R56 or a value is
outside its slot's type. -/
def decodeSlots (opsel : Nat) (t : Slots) : Option Instr :=
  match opsel with
  | 0 => if t = {} then some .encIdn else none
  | 1 => if t = { ch := t.ch, val := t.val } then (slotNat t.ch).bind fun c => (slotRat t.val).map (.encVset c) else none
  | 2 => if t = { ch := t.ch, val := t.val } then (slotNat t.ch).bind fun c => (slotRat t.val).map (.encIset c) else none
  | 3 => if t = { ch := t.ch } then (slotNat t.ch).map .encVsetQ else none
  | 4 => if t = { ch := t.ch } then (slotNat t.ch).map .encIsetQ else none
  | 5 => if t = { ch := t.ch } then (slotNat t.ch).map .encVoutQ else none
  | 6 => if t = { ch := t.ch } then (slotNat t.ch).map .encIoutQ else none
  | 7 => if t = { flag := t.flag } then (slotBits 1 t.flag).map .encOut else none
  | 8 => if t = {} then some .encStatusQ else none
  | 9 => if t = { buf := t.buf } then (slotSeq 8 t.buf).map .decText else none
  | 10 => if t = { s := t.s, k := t.k } then (slotSeq 7 t.s).bind fun s => (slotOptNat t.k).map (.decFloat s) else none
  | 11 => if t = { buf := t.buf } then (slotSeq 8 t.buf).map .decStatusRaw else none
  | 12 => if t = { sb := t.sb } then (slotBits 8 t.sb).map .decStatusFields else none
  | 13 => if t = { sb := t.sb, reads := t.reads } then (slotBits 8 t.sb).bind fun b => (slotRats t.reads).map (.decodeStatus b) else none
  | _ => none

/-- R55, R57, R24, in the order of spec/60_exceptions.md rule R143: a reserved selector first, then the operands. -/
def decode (r : Request) : Except Reject Instr :=
  if 14 ≤ r.opsel.toNat then .error .reservedOp
  else
    match decodeSlots r.opsel.toNat r.slots with
    | some i => .ok i
    | none => .error .operand

/-! ## The encoder -/

/-- A `Nat` as a raw operand value. -/
def natOperand (n : Nat) : Operand := .num (n : Rat)

/-- A sequence of bit vectors as a raw operand value. -/
def bitsOperand {w : Nat} (bs : List (BitVec w)) : Operand := .seq (bs.map fun b => (b.toNat : Rat))

/-- The request of an instruction: OPSEL by R55, slots by R56. -/
def encode : Instr → Request
  | .encIdn => { opsel := 0x0#4 }
  | .encVset ch val => { opsel := 0x1#4, slots := { ch := some (natOperand ch), val := some (.num val) } }
  | .encIset ch val => { opsel := 0x2#4, slots := { ch := some (natOperand ch), val := some (.num val) } }
  | .encVsetQ ch => { opsel := 0x3#4, slots := { ch := some (natOperand ch) } }
  | .encIsetQ ch => { opsel := 0x4#4, slots := { ch := some (natOperand ch) } }
  | .encVoutQ ch => { opsel := 0x5#4, slots := { ch := some (natOperand ch) } }
  | .encIoutQ ch => { opsel := 0x6#4, slots := { ch := some (natOperand ch) } }
  | .encOut flag => { opsel := 0x7#4, slots := { flag := some (natOperand flag.toNat) } }
  | .encStatusQ => { opsel := 0x8#4 }
  | .decText buf => { opsel := 0x9#4, slots := { buf := some (bitsOperand buf) } }
  | .decFloat s k => { opsel := 0xA#4, slots := { s := some (bitsOperand s), k := k.map natOperand } }
  | .decStatusRaw buf => { opsel := 0xB#4, slots := { buf := some (bitsOperand buf) } }
  | .decStatusFields sb => { opsel := 0xC#4, slots := { sb := some (natOperand sb.toNat) } }
  | .decodeStatus sb reads => { opsel := 0xD#4, slots := { sb := some (natOperand sb.toNat), reads := some (.seq reads) } }

/-! ## The opcode table's words -/

/-- Each slot the operation takes, holding the zero of its type: 0, or the empty sequence (log 8). -/
def zeroSlots (opsel : Nat) : Slots :=
  match opsel with
  | 1 => { ch := some (.num 0), val := some (.num 0) }
  | 2 => { ch := some (.num 0), val := some (.num 0) }
  | 3 => { ch := some (.num 0) }
  | 4 => { ch := some (.num 0) }
  | 5 => { ch := some (.num 0) }
  | 6 => { ch := some (.num 0) }
  | 7 => { flag := some (.num 0) }
  | 9 => { buf := some (.seq []) }
  | 10 => { s := some (.seq []) }
  | 11 => { buf := some (.seq []) }
  | 12 => { sb := some (.num 0) }
  | 13 => { sb := some (.num 0), reads := some (.seq []) }
  | _ => {}

/-- The request that a word of the opcode table stands for: OPSEL is bits 3..0 (every row's mask is 0xF), and the operand
slots, to which the table gives no bits, hold zeros (log 8). -/
def tableRequest (nbits w : Nat) : Request :=
  let opsel := BitVec.ofNat 4 (w % 2 ^ nbits)
  { opsel := opsel, slots := zeroSlots opsel.toNat }

/-- The instruction the decoder reads from a word of the opcode table. -/
def decodeTableWord (nbits w : Nat) : Option Instr :=
  match decode (tableRequest nbits w) with
  | .ok i => some i
  | .error _ => none

end Sys2Proof
end

