-- ==== Sys2Proof/Machine/State.lean ====
section
/-! DEFINITION. The state of the block (spec/10_state.md rules R20 and R21, spec/70_reset_and_hazards.md rule R160), its result
records (R27 to R31), the outcomes of spec/60_exceptions.md rule R140, and the two ports. -/

namespace Sys2Proof.Machine

/-- R27. -/
inductive Mode where
  | cv | cc
deriving DecidableEq, Repr

/-- R28: RESERVED is an explicit variant with no further meaning. -/
inductive Track where
  | independent | series | reserved | parallel
deriving DecidableEq, Repr

/-- `ChannelStatus` of R30. -/
structure ChannelStatus where
  mode : Mode
  setVoltage : Rat
  setCurrent : Rat
  measuredVoltage : Rat
  measuredCurrent : Rat
deriving DecidableEq, Repr

/-- `DeviceStatus` of R30; `channels[0]` is channel 1. -/
structure DeviceStatus where
  channels : List ChannelStatus
  track : Track
  beep : Bool
  lock : Bool
  output : Bool
deriving DecidableEq, Repr

/-- `StatusFields` of R31; `modes[0]` is channel 1. -/
structure StatusFields where
  modes : List Mode
  track : Track
  beep : Bool
  lock : Bool
  output : Bool
deriving DecidableEq, Repr

/-- The result of an `Ok` outcome, by the result types of spec/30_encoding.md rule R56. -/
inductive Result where
  | bytes (tx : Bytes)
  | text (s : Str)
  | rat (q : Rat)
  | byte (b : Byte)
  | fields (f : StatusFields)
  | status (d : DeviceStatus)
deriving DecidableEq, Repr

/-- The error kinds of R140 with their info. -/
inductive ErrKind where
  /-- DECODE_ERROR, with the index of the first byte above 0x7F -/
  | decodeError (index : Nat)
  /-- PARSE_ERROR, no info -/
  | parseError
  /-- TRANSIENT, with the length of the rejected reply -/
  | transient (length : Nat)
  /-- NO_RESPONSE, with the failed command: never by the block, reserved for the host's loops (R147) -/
  | noResponse (command : Bytes)
deriving DecidableEq, Repr

/-- The refusals of R140. -/
inductive RefusalReason where
  | reservedOp | operand | channel | range | numericForm | arity | config
deriving DecidableEq, Repr

/-- One outcome on the response port (spec/00_scope.md rule R9, R25). -/
inductive Response where
  | ok (v : Result)
  | err (e : ErrKind)
  | refused (r : RefusalReason)
deriving DecidableEq, Repr

/-- One input the host presents to the block: its reset input (R160) or a request on REQ (R24). -/
inductive Input where
  | reset (count : Nat)
  | request (r : Request)
deriving DecidableEq, Repr

/-- The state. `channelCount` and `configured` are the block's own and all it holds (R20, R21). The other three fields are the
model's: the host's side of the two ports, and the mark of R142. -/
structure State where
  /-- CFG.CHANNEL_COUNT, 2 bits (R20) -/
  channelCount : BitVec 2
  /-- the reset-state bit (R20, R160) -/
  configured : Bool
  /-- what the host presents from here on, in the order it issues it (R49); the head is at the ports now (log 3) -/
  pending : List Input
  /-- the outcome on RSP that the last input was given, if any was (R25, log 4) -/
  rsp : Option Response
  /-- some input of this run was refused (R142: "A model marks the run as refused", log 5) -/
  runRefused : Bool
deriving DecidableEq, Repr

/-- Faults of a step: there are none. R144: the block has no trap mechanism, and every error is an outcome on RSP. No
instruction raises one. -/
inductive Fault where
deriving DecidableEq, Repr

/-- Refusals of a step. A `Refused` outcome of the block is no refusal of a step: it is an outcome on RSP, after which the
block goes on (R25, R144; log 5). -/
inductive Refusal where
  /-- raised by `exec` for an instruction without a meaning: none is left (safe) -/
  | notModelled (mnemonic : String)
deriving DecidableEq, Repr

/-- The state after an accepted reset (R161): CFG.CHANNEL_COUNT is the count, `configured` is true, nothing else exists. -/
def State.afterReset (count : BitVec 2) : State :=
  { channelCount := count, configured := true, pending := [], rsp := none, runRefused := false }

/-- The machine right after an accepted reset. The spec gives the count no default: this is the reset with the count of
`Config.resetChannelCount` (DESIGN CHOICE, log 1, unsafe). -/
def State.reset : State := State.afterReset Config.resetChannelCount

/-- The machine before its first reset (R160, R161): unconfigured, and CFG.CHANNEL_COUNT holds no value the model knows
(log 2). -/
def State.powerOn : State :=
  { channelCount := Config.channelCountBeforeReset, configured := false, pending := [], rsp := none, runRefused := false }

end Sys2Proof.Machine
end

