-- ==== Sys2Proof/Machine/Ascii.lean ====
section
/-! DEFINITION. The characters of spec/30_encoding.md rule R64 and the verbs of rule R61, by their ASCII codes. The codes are the
spec's, which marks them as general knowledge (G1). -/

namespace Sys2Proof.Machine

/-- `.` -/
def chDot : Char7 := 0x2E#7
/-- `:` -/
def chColon : Char7 := 0x3A#7
/-- `?` -/
def chQuery : Char7 := 0x3F#7
/-- `+` of rule R71 -/
def chPlus : Char7 := 0x2B#7
/-- `-` of rule R71 -/
def chMinus : Char7 := 0x2D#7
/-- `_` of rule R71 -/
def chUnderscore : Char7 := 0x5F#7
/-- `e` of rule R71 -/
def chLowerE : Char7 := 0x65#7

/-- `*IDN` -/
def verbIdn : Str := [0x2A#7, 0x49#7, 0x44#7, 0x4E#7]
/-- `VSET` -/
def verbVset : Str := [0x56#7, 0x53#7, 0x45#7, 0x54#7]
/-- `ISET` -/
def verbIset : Str := [0x49#7, 0x53#7, 0x45#7, 0x54#7]
/-- `VOUT` -/
def verbVout : Str := [0x56#7, 0x4F#7, 0x55#7, 0x54#7]
/-- `IOUT` -/
def verbIout : Str := [0x49#7, 0x4F#7, 0x55#7, 0x54#7]
/-- `OUT` -/
def verbOut : Str := [0x4F#7, 0x55#7, 0x54#7]
/-- `STATUS` -/
def verbStatus : Str := [0x53#7, 0x54#7, 0x41#7, 0x54#7, 0x55#7, 0x53#7]

/-- `inf` of rule R71, in lower case. -/
def wordInf : Str := [0x69#7, 0x6E#7, 0x66#7]
/-- `infinity` of rule R71, in lower case. -/
def wordInfinity : Str := [0x69#7, 0x6E#7, 0x66#7, 0x69#7, 0x6E#7, 0x69#7, 0x74#7, 0x79#7]
/-- `nan` of rule R71, in lower case. -/
def wordNan : Str := [0x6E#7, 0x61#7, 0x6E#7]

/-- The digit `0`..`9` of a number below 10: codes 0x30..0x39. -/
def digitChar (n : Nat) : Char7 := BitVec.ofNat 7 (0x30 + n)

/-- `digit` of rule R70. -/
def isDigit (c : Char7) : Bool := decide (0x30 ≤ c.toNat) && decide (c.toNat ≤ 0x39)

/-- The number of a digit. -/
def digitVal (c : Char7) : Nat := c.toNat - 0x30

/-- `ws` of rule R71: 0x09..0x0D and 0x1C..0x20. -/
def isWs (c : Char7) : Bool :=
  (decide (0x09 ≤ c.toNat) && decide (c.toNat ≤ 0x0D)) || (decide (0x1C ≤ c.toNat) && decide (c.toNat ≤ 0x20))

/-- A capital letter in lower case, any other character as it is. -/
def toLower (c : Char7) : Char7 :=
  if 0x41 ≤ c.toNat ∧ c.toNat ≤ 0x5A then BitVec.ofNat 7 (c.toNat + 0x20) else c

end Sys2Proof.Machine
end

