-- ==== Sys2Proof/Machine/Operands.lean ====
section
/-! DEFINITION. Operand checks and the numeric text the encoder writes: the channel (spec/41_frame_encoder.md rule R79), the
numerals, the rounding and the fixed-decimal text (spec/30_encoding.md rules R65 to R69). -/

namespace Sys2Proof.Machine

/-- R79: 1 ≤ ch ≤ CFG.CHANNEL_COUNT. -/
def legalChannel (count : BitVec 2) (ch : Nat) : Bool := decide (1 ≤ ch) && decide (ch ≤ count.toNat)

/-- The decimal digits of `n`, most significant first, with `fuel` to bound the recursion. -/
def decFrom : Nat → Nat → Str
  | 0, _ => []
  | fuel + 1, n => if n < 10 then [digitChar n] else decFrom fuel (n / 10) ++ [digitChar (n % 10)]

/-- `dec(n)` of R66: the shortest decimal numeral. `n + 1` digits always suffice. -/
def dec (n : Nat) : Str := decFrom (n + 1) n

/-- `pad(n, p)` of R67: the last `p` decimal digits of `n`, which for `n < 10^p` is the zero-padded numeral. -/
def pad (n : Nat) : Nat → Str
  | 0 => []
  | p + 1 => pad (n / 10) p ++ [digitChar (n % 10)]

/-- The quotient rounded to the nearest integer, an exact half to the even one. -/
def divNearestEven (a b : Nat) : Nat :=
  if 2 * (a % b) < b then a / b
  else if 2 * (a % b) > b then a / b + 1
  else if a / b % 2 = 0 then a / b
  else a / b + 1

/-- `rne(x)` of R68, for `x ≥ 0`. -/
def rne (x : Rat) : Nat := divNearestEven x.num.toNat x.den

/-- `x * 10^p`. -/
def scale10 (x : Rat) (p : Nat) : Rat := mkRat (x.num * 10 ^ p) x.den

/-- `n` units of 10^-p as text: the integer part, a dot, and exactly `p` decimals (R69). -/
def decimalText (n p : Nat) : Str := dec (n / 10 ^ p) ++ [chDot] ++ pad (n % 10 ^ p) p

/-- `fixed(x, p, max)` of R69. -/
def fixed (x : Rat) (p max : Nat) : Except RefusalReason Str :=
  if x.num < 0 then .error .range
  else if rne (scale10 x p) > max then .error .range
  else .ok (decimalText (rne (scale10 x p)) p)

end Sys2Proof.Machine
end

