-- ==== Sys2Proof/Machine/Ops.lean ====
section
/-! DEFINITION. The shared operations: reads of the receive buffer and writes of the transmit buffer (spec/20_memory.md rules R40
to R43), giving an outcome (spec/60_exceptions.md rules R140 to R144), and the reset input (spec/70_reset_and_hazards.md rule
R160). -/

namespace Sys2Proof.Machine

/-- `MemRead(RX, i, n)` of R40: the `n` bytes from index `i`. RX is the BUF operand itself. -/
def memRead (rx : Bytes) (i n : Nat) : Bytes := (rx.drop i).take n

/-- `MemWrite(TX, i, n, v)` of R41: the bytes `v` stand at the indices from `i`. -/
def memWrite (tx : Bytes) (i : Nat) (v : Bytes) : Bytes := tx.take i ++ v ++ tx.drop (i + v.length)

/-- The encoders' loop (R75, R76, R87): each character from index `i` on is written as one byte. -/
def writeText : Str → Nat → Bytes → Bytes
  | [], _, tx => tx
  | c :: cs, i, tx => writeText cs (i + 1) (memWrite tx i [c.zeroExtend 8])

/-- A fresh TX holding the text (R41, R43). -/
def txOf (s : Str) : Bytes := writeText s 0 []

/-- The outcome code of R140. -/
def Response.code : Response → Byte
  | .ok _ => 0x00#8
  | .err (.decodeError _) => 0x01#8
  | .err .parseError => 0x02#8
  | .err (.transient _) => 0x03#8
  | .err (.noResponse _) => 0x04#8
  | .refused .reservedOp => 0x10#8
  | .refused .operand => 0x11#8
  | .refused .channel => 0x12#8
  | .refused .range => 0x13#8
  | .refused .numericForm => 0x14#8
  | .refused .arity => 0x15#8
  | .refused .config => 0x16#8

def Response.isRefused : Response → Bool
  | .ok _ => false
  | .err _ => false
  | .refused _ => true

/-- The outcome stands on RSP. R144: nothing else of the block changes, whatever the outcome. R142: a refusal marks the run
(log 5). -/
def State.respond (s : State) (r : Response) : State :=
  { s with rsp := some r, runRefused := s.runRefused || r.isRefused }

/-- What a request is answered: the outcome `r`, or `Refused(CONFIG)` before the first accepted reset (R160, R143: CONFIG is the
first check of every request). The block answers every request (R25). -/
def answer (s : State) (r : Response) : Host.Outcome State Fault Refusal :=
  .next (s.respond (if s.configured then r else .refused .config))

/-- The refusal a rejected request is given (R57, R24). -/
def rejectReason : Reject → RefusalReason
  | .reservedOp => .reservedOp
  | .operand => .operand

/-- RESET(count) of R160. An accepted reset puts nothing on RSP (log 4); a refused one changes neither CFG nor `configured`, and
its `Refused(CONFIG)` stands on RSP (log 6). -/
def takeReset (count : Nat) (s : State) : Host.Outcome State Fault Refusal :=
  if count ∈ Config.legalChannelCounts then
    .next { s with channelCount := BitVec.ofNat 2 count, configured := true, rsp := none }
  else
    .next (s.respond (.refused .config))

end Sys2Proof.Machine
end

