-- ==== Sys2Proof/Machine/FrameEncoder.lean ====
section
/-! DEFINITION. The nine frame encoder operations, spec/41_frame_encoder.md rules R75 to R88. Each operation is a pure function of
its operands and CFG.CHANNEL_COUNT (spec/10_state.md rule R21), named `resp…`; its meaning, named `exec…`, answers with it. -/

namespace Sys2Proof.Machine

/-- The channel numeral where the command takes one (R58, R65). -/
def channelText : Option Nat → Str
  | some ch => dec ch
  | none => []

/-- R75: the query form, a channel numeral where the command takes one. -/
def encodeQuery (verb : Str) (ch : Option Nat) : Bytes :=
  txOf (verb ++ channelText ch ++ [chQuery])

/-- R76: the set-directive form. -/
def encodeDirective (verb : Str) (ch : Nat) (x : Rat) (p max : Nat) : Response :=
  match fixed x p max with
  | .error r => .refused r
  | .ok t => .ok (.bytes (txOf (verb ++ dec ch ++ [chColon] ++ t)))

/-- `check CH (rule R79)`, before anything else the operation does with its operands (R77). -/
def checkChannel (count : BitVec 2) (ch : Nat) (r : Response) : Response :=
  if legalChannel count ch then r else .refused .channel

/-- R80. -/
def respEncIdn : Response := .ok (.bytes (encodeQuery verbIdn none))

/-- R81. -/
def respEncVset (count : BitVec 2) (ch : Nat) (val : Rat) : Response :=
  checkChannel count ch (encodeDirective verbVset ch val Config.vPrec Config.vMaxUnits)

/-- R82. -/
def respEncIset (count : BitVec 2) (ch : Nat) (val : Rat) : Response :=
  checkChannel count ch (encodeDirective verbIset ch val Config.iPrec Config.iMaxUnits)

/-- R83. -/
def respEncVsetQ (count : BitVec 2) (ch : Nat) : Response :=
  checkChannel count ch (.ok (.bytes (encodeQuery verbVset (some ch))))

/-- R84. -/
def respEncIsetQ (count : BitVec 2) (ch : Nat) : Response :=
  checkChannel count ch (.ok (.bytes (encodeQuery verbIset (some ch))))

/-- R85. -/
def respEncVoutQ (count : BitVec 2) (ch : Nat) : Response :=
  checkChannel count ch (.ok (.bytes (encodeQuery verbVout (some ch))))

/-- R86. -/
def respEncIoutQ (count : BitVec 2) (ch : Nat) : Response :=
  checkChannel count ch (.ok (.bytes (encodeQuery verbIout (some ch))))

/-- R87, R60: no channel, no separator, one digit. -/
def respEncOut (flag : Bit) : Response :=
  .ok (.bytes (txOf (verbOut ++ (if flag = 1#1 then [digitChar 1] else [digitChar 0]))))

/-- R88. -/
def respEncStatusQ : Response := .ok (.bytes (encodeQuery verbStatus none))

/-- ENC_IDN, R80. -/
def execEncIdn (s : State) : Host.Outcome State Fault Refusal := answer s respEncIdn

/-- ENC_VSET, R81. -/
def execEncVset (ch : Nat) (val : Rat) (s : State) : Host.Outcome State Fault Refusal :=
  answer s (respEncVset s.channelCount ch val)

/-- ENC_ISET, R82. -/
def execEncIset (ch : Nat) (val : Rat) (s : State) : Host.Outcome State Fault Refusal :=
  answer s (respEncIset s.channelCount ch val)

/-- ENC_VSET_Q, R83. -/
def execEncVsetQ (ch : Nat) (s : State) : Host.Outcome State Fault Refusal :=
  answer s (respEncVsetQ s.channelCount ch)

/-- ENC_ISET_Q, R84. -/
def execEncIsetQ (ch : Nat) (s : State) : Host.Outcome State Fault Refusal :=
  answer s (respEncIsetQ s.channelCount ch)

/-- ENC_VOUT_Q, R85. -/
def execEncVoutQ (ch : Nat) (s : State) : Host.Outcome State Fault Refusal :=
  answer s (respEncVoutQ s.channelCount ch)

/-- ENC_IOUT_Q, R86. -/
def execEncIoutQ (ch : Nat) (s : State) : Host.Outcome State Fault Refusal :=
  answer s (respEncIoutQ s.channelCount ch)

/-- ENC_OUT, R87. -/
def execEncOut (flag : Bit) (s : State) : Host.Outcome State Fault Refusal := answer s (respEncOut flag)

/-- ENC_STATUS_Q, R88. -/
def execEncStatusQ (s : State) : Host.Outcome State Fault Refusal := answer s respEncStatusQ

end Sys2Proof.Machine
end

