-- ==== Sys2Proof/Machine/Numeral.lean ====
section
/-! DEFINITION. The two numeric grammars of the decoder: the strict one of spec/30_encoding.md rule R70, with its value, and the
lenient one of rule R71. Each stands twice: as the grammar reads (`IsNumeral`, `IsLenient`), and as the recogniser that runs. -/

namespace Sys2Proof.Machine

/-! ## The strict grammar, R70 -/

/-- `digits`: one digit or more. -/
def IsDigits (d : Str) : Prop := d ≠ [] ∧ ∀ c ∈ d, isDigit c = true

/-- The text is a `numeral` whose integer part is `I` and whose fractional part is `F`. -/
def IsNumeral (t I F : Str) : Prop :=
  (IsDigits I ∧ F = [] ∧ t = I) ∨
  (IsDigits I ∧ (F = [] ∨ IsDigits F) ∧ t = I ++ [chDot] ++ F) ∨
  (I = [] ∧ IsDigits F ∧ t = [chDot] ++ F)

/-- `N` of R70: a digit string as a base-10 number. -/
def digitsVal (d : Str) : Nat := d.foldl (fun n c => n * 10 + digitVal c) 0

/-- The value of a numeral (R70, R102): exact. -/
def numeralVal (I F : Str) : Rat := mkRat (digitsVal (I ++ F)) (10 ^ F.length)

/-- The digits a text begins with. -/
def leadDigits : Str → Str
  | [] => []
  | c :: cs => if isDigit c then c :: leadDigits cs else []

/-- What follows them. -/
def afterDigits : Str → Str
  | [] => []
  | c :: cs => if isDigit c then afterDigits cs else c :: cs

/-- The value of a strict numeral, `none` for any other text. -/
def parseNumeral (t : Str) : Option Rat :=
  match afterDigits t with
  | [] => if leadDigits t = [] then none else some (numeralVal (leadDigits t) [])
  | c :: F =>
    if c = chDot ∧ F.all isDigit = true ∧ ¬ (leadDigits t = [] ∧ F = []) then some (numeralVal (leadDigits t) F) else none

/-! ## The lenient grammar, R71 -/

/-- `udigits`: digits in which a single `_` may stand between two digits. `afterDigit` says that a digit stands just before. -/
def isUdigitsFrom : Bool → Str → Bool
  | afterDigit, [] => afterDigit
  | afterDigit, c :: cs =>
    if isDigit c then isUdigitsFrom true cs else (c == chUnderscore) && afterDigit && isUdigitsFrom false cs

def isUdigits (t : Str) : Bool := isUdigitsFrom false t

/-- The text before the first character that satisfies `f`. -/
def before (f : Char7 → Bool) : Str → Str
  | [] => []
  | c :: cs => if f c then [] else c :: before f cs

/-- The text from the first character that satisfies `f` on. -/
def fromFirst (f : Char7 → Bool) : Str → Str
  | [] => []
  | c :: cs => if f c then c :: cs else fromFirst f cs

def isDot (c : Char7) : Bool := c == chDot

/-- `unumeral`: the numeral of R70 with `udigits` in place of `digits`. -/
def isUnumeral (t : Str) : Bool :=
  match fromFirst isDot t with
  | [] => isUdigits (before isDot t)
  | _ :: F =>
    (isUdigits (before isDot t) && (F.isEmpty || isUdigits F)) || ((before isDot t).isEmpty && isUdigits F)

def isSign (c : Char7) : Bool := c == chPlus || c == chMinus

/-- The text without the sign it may begin with. -/
def dropSign : Str → Str
  | [] => []
  | c :: cs => if isSign c then cs else c :: cs

def isExpMark (c : Char7) : Bool := toLower c == chLowerE

/-- `body`, a number with an optional exponent. -/
def isNumberBody (t : Str) : Bool :=
  match fromFirst isExpMark t with
  | [] => isUnumeral (before isExpMark t)
  | _ :: x => isUnumeral (before isExpMark t) && isUdigits (dropSign x)

/-- `body`, a word in any case. -/
def isWordBody (t : Str) : Bool :=
  (t.map toLower == wordInf) || (t.map toLower == wordInfinity) || (t.map toLower == wordNan)

/-- The text without the whitespace it begins with. -/
def dropWs : Str → Str
  | [] => []
  | c :: cs => if isWs c then dropWs cs else c :: cs

/-- The text without the whitespace at both ends. -/
def trimWs (t : Str) : Str := (dropWs (dropWs t).reverse).reverse

/-- The text matches `lenient`. -/
def isLenient (t : Str) : Bool :=
  isNumberBody (dropSign (trimWs t)) || isWordBody (dropSign (trimWs t))

/-- `udigits` as the grammar reads: groups of digits with a single `_` between one and the next. -/
def IsUdigits (t : Str) : Prop :=
  ∃ groups : List Str, groups ≠ [] ∧ (∀ g ∈ groups, IsDigits g) ∧ t = [chUnderscore].intercalate groups

/-- `unumeral` as the grammar reads. -/
def IsUnumeral (t : Str) : Prop :=
  IsUdigits t ∨
  (∃ I F, IsUdigits I ∧ (F = [] ∨ IsUdigits F) ∧ t = I ++ [chDot] ++ F) ∨
  (∃ F, IsUdigits F ∧ t = [chDot] ++ F)

/-- `sign?`. -/
def IsOptSign (t : Str) : Prop := t = [] ∨ t = [chPlus] ∨ t = [chMinus]

/-- `exponent`. -/
def IsExponent (t : Str) : Prop :=
  ∃ e sg d, toLower e = chLowerE ∧ IsOptSign sg ∧ IsUdigits d ∧ t = [e] ++ sg ++ d

/-- `body` as the grammar reads. -/
def IsBody (t : Str) : Prop :=
  (∃ u x, IsUnumeral u ∧ (x = [] ∨ IsExponent x) ∧ t = u ++ x) ∨
  t.map toLower = wordInf ∨ t.map toLower = wordInfinity ∨ t.map toLower = wordNan

/-- `lenient` as the grammar reads. -/
def IsLenient (t : Str) : Prop :=
  ∃ w sg b w', (∀ c ∈ w, isWs c = true) ∧ IsOptSign sg ∧ IsBody b ∧ (∀ c ∈ w', isWs c = true) ∧ t = w ++ sg ++ b ++ w'

end Sys2Proof.Machine
end

