-- ==== Sys2Proof/Machine/ResponseDecoder.lean ====
section
/-! DEFINITION. The two response decoder operations, spec/42_response_decoder.md rules R100 to R103. -/

namespace Sys2Proof.Machine

/-- R100's first loop: the length that is left of the first `m` bytes when their trailing NULs are stripped. -/
def keptLength (rx : Bytes) : Nat → Nat
  | 0 => 0
  | m + 1 => if memRead rx m 1 = [0x00#8] then keptLength rx m else m + 1

/-- The kept part of the buffer. -/
def keptBytes (buf : Bytes) : Bytes := memRead buf 0 (keptLength buf buf.length)

/-- R100's second loop: the index of the first byte above 0x7F, the first byte having index `i`. -/
def firstHigh : Bytes → Nat → Option Nat
  | [], _ => none
  | b :: bs, i => if b.toNat > 0x7F then some i else firstHigh bs (i + 1)

/-- R100. -/
def respDecText (buf : Bytes) : Response :=
  match firstHigh (keptBytes buf) 0 with
  | some i => .err (.decodeError i)
  | none => .ok (.text ((keptBytes buf).map fun b => b.truncate 7))

/-- R101's truncation to max_chars, where K gives it. -/
def truncateTo (s : Str) : Option Nat → Str
  | some n => s.take n
  | none => s

/-- R101: truncation, then the strict grammar, then the lenient one. -/
def respDecFloat (s : Str) (k : Option Nat) : Response :=
  match parseNumeral (truncateTo s k) with
  | some v => .ok (.rat v)
  | none => if isLenient (truncateTo s k) then .refused .numericForm else .err .parseError

/-- DEC_TEXT, R100. -/
def execDecText (buf : Bytes) (s : State) : Host.Outcome State Fault Refusal := answer s (respDecText buf)

/-- DEC_FLOAT, R101. -/
def execDecFloat (t : Str) (k : Option Nat) (s : State) : Host.Outcome State Fault Refusal := answer s (respDecFloat t k)

end Sys2Proof.Machine
end

