-- ==== Sys2Proof/Machine/Flags.lean ====
section
/-! DEFINITION. The block has no condition codes (spec/10_state.md rule R32); what it decodes is the status byte. Its bit fields:
R26 to R29, the bit numbering of spec/00_scope.md rule R6, and `fields` of spec/43_status_decoder.md rule R121. -/

namespace Sys2Proof.Machine

/-- `b[i]` of R6. -/
def bitOf (b : Byte) (i : Nat) : Bool := b.getLsbD i

/-- `b[hi:lo]` of R6. -/
def bitsOf (b : Byte) (hi lo : Nat) : Nat := b.toNat / 2 ^ lo % 2 ^ (hi - lo + 1)

/-- R27. -/
def modeOf (bit : Bool) : Mode := if bit then .cc else .cv

/-- R28. -/
def trackOf (v : Nat) : Track :=
  match v with
  | 0 => .independent
  | 1 => .series
  | 2 => .reserved
  | _ => .parallel

/-- `fields(b)` of R121. Bit 7 is not read, and bit 1 is not read with one channel. -/
def statusFields (count : BitVec 2) (b : Byte) : StatusFields :=
  { modes := [modeOf (bitOf b 0)] ++ (if count.toNat = 2 then [modeOf (bitOf b 1)] else [])
    track := trackOf (bitsOf b 3 2)
    beep := bitOf b 4
    lock := bitOf b 5
    output := bitOf b 6 }

end Sys2Proof.Machine
end

