-- ==== Sys2Proof/Machine/StatusDecoder.lean ====
section
/-! DEFINITION. The three status decoder operations, spec/43_status_decoder.md rules R120, R121 and R130. -/

namespace Sys2Proof.Machine

/-- R120: exactly one byte, with no NUL stripping and no 7-bit check. -/
def respDecStatusRaw (buf : Bytes) : Response :=
  match buf with
  | [b] => .ok (.byte b)
  | _ => .err (.transient buf.length)

/-- R121. -/
def respDecStatusFields (count : BitVec 2) (sb : Byte) : Response := .ok (.fields (statusFields count sb))

/-- R130's loop: each channel takes its mode and the next four reads, in the order of R131. -/
def assembleChannels : List Mode → List Rat → List ChannelStatus
  | m :: ms, sv :: sc :: mv :: mc :: rest =>
    { mode := m, setVoltage := sv, setCurrent := sc, measuredVoltage := mv, measuredCurrent := mc } ::
      assembleChannels ms rest
  | _, _ => []

/-- The record of R130: the channels, beside the global fields of the status byte. -/
def deviceStatus (f : StatusFields) (reads : List Rat) : DeviceStatus :=
  { channels := assembleChannels f.modes reads, track := f.track, beep := f.beep, lock := f.lock, output := f.output }

/-- R130. -/
def respDecodeStatus (count : BitVec 2) (sb : Byte) (reads : List Rat) : Response :=
  if reads.length ≠ 4 * count.toNat then .refused .arity
  else
    .ok (.status (deviceStatus (statusFields count sb) reads))

/-- DEC_STATUS_RAW, R120. -/
def execDecStatusRaw (buf : Bytes) (s : State) : Host.Outcome State Fault Refusal := answer s (respDecStatusRaw buf)

/-- DEC_STATUS_FIELDS, R121. -/
def execDecStatusFields (sb : Byte) (s : State) : Host.Outcome State Fault Refusal :=
  answer s (respDecStatusFields s.channelCount sb)

/-- DECODE_STATUS, R130. -/
def execDecodeStatus (sb : Byte) (reads : List Rat) (s : State) : Host.Outcome State Fault Refusal :=
  answer s (respDecodeStatus s.channelCount sb reads)

end Sys2Proof.Machine
end

