-- ==== Sys2Proof/Machine/Dispatch.lean ====
section
/-! DEFINITION. One arm per instruction: the operation map of spec/30_encoding.md rule R55. -/

namespace Sys2Proof.Machine

def exec (i : Instr) (s : State) : Host.Outcome State Fault Refusal :=
  match i with
  -- frame encoder
  | .encIdn => Sys2Proof.Machine.execEncIdn s
  | .encVset ch val => Sys2Proof.Machine.execEncVset ch val s
  | .encIset ch val => Sys2Proof.Machine.execEncIset ch val s
  | .encVsetQ ch => Sys2Proof.Machine.execEncVsetQ ch s
  | .encIsetQ ch => Sys2Proof.Machine.execEncIsetQ ch s
  | .encVoutQ ch => Sys2Proof.Machine.execEncVoutQ ch s
  | .encIoutQ ch => Sys2Proof.Machine.execEncIoutQ ch s
  | .encOut flag => Sys2Proof.Machine.execEncOut flag s
  | .encStatusQ => Sys2Proof.Machine.execEncStatusQ s
  -- response decoder
  | .decText buf => Sys2Proof.Machine.execDecText buf s
  | .decFloat t k => Sys2Proof.Machine.execDecFloat t k s
  -- status decoder
  | .decStatusRaw buf => Sys2Proof.Machine.execDecStatusRaw buf s
  | .decStatusFields sb => Sys2Proof.Machine.execDecStatusFields sb s
  | .decodeStatus sb reads => Sys2Proof.Machine.execDecodeStatus sb reads s

end Sys2Proof.Machine
end

