-- ==== Sys2Proof/Machine/Serve.lean ====
section
/-! DEFINITION. What the block does with one input (spec/10_state.md rules R23 to R25, spec/70_reset_and_hazards.md rule R160). -/

namespace Sys2Proof.Machine

/-- A request is decoded and run; one that decodes to no instruction is refused by name. CONFIG comes before either
(spec/60_exceptions.md rule R143): `answer` checks it, in the meanings as here. -/
def serveRequest (r : Request) (s : State) : Host.Outcome State Fault Refusal :=
  match decode r with
  | .ok i => exec i s
  | .error e => answer s (.refused (rejectReason e))

/-- One input: the reset input or a request. -/
def serveInput (i : Input) (s : State) : Host.Outcome State Fault Refusal :=
  match i with
  | .reset count => takeReset count s
  | .request r => serveRequest r s

end Sys2Proof.Machine
end

