-- ==== Sys2Proof/Machine/Step.lean ====
section
/-! DEFINITION. One step: the block takes the next input the host presents and gives its outcome, in one indivisible step
(spec/20_memory.md rules R47 and R49). With nothing presented, nothing happens (log 3). -/

namespace Sys2Proof.Machine

def step (s : State) : Host.Outcome State Fault Refusal :=
  match s.pending with
  | [] => .next s
  | i :: rest => serveInput i { s with pending := rest }

/-- The host presents the request that a word of the opcode table stands for, as the next input. Log 3 says how a program
comes to run. -/
def State.withFetchWord (s : State) (nbits w : Nat) : State :=
  { s with pending := .request (tableRequest nbits w) :: s.pending }

end Sys2Proof.Machine
end

