-- ==== Sys2Proof/Machine/HostSide.lean ====
section
/-! DEFINITION. What the host builds from the block's operations: the reply pipelines (spec/42_response_decoder.md rule R105), the
facade's pseudo-operations (spec/30_encoding.md rule R74) and the host's two retry loops (spec/43_status_decoder.md rules R131 to
R133, spec/60_exceptions.md rule R147), without their times. The block runs none of them: no step calls this file. What the
transport delivers is an argument, one buffer for each attempt; an attempt without one counts as an empty read. -/

namespace Sys2Proof.Machine

/-! ## Reply pipelines, R105 -/

/-- The reply column of R61. -/
inductive ReplyKind where
  | text | voltage | current | status
deriving DecidableEq, Repr

/-- R61: how the reply to a command is decoded; `none` where there is no reply (R89) and for the decoders. -/
def replyKind : Instr → Option ReplyKind
  | .encIdn => some .text
  | .encVset _ _ => none
  | .encIset _ _ => none
  | .encVsetQ _ => some .voltage
  | .encIsetQ _ => some .current
  | .encVoutQ _ => some .voltage
  | .encIoutQ _ => some .current
  | .encOut _ => none
  | .encStatusQ => some .status
  | .decText _ => none
  | .decFloat _ _ => none
  | .decStatusRaw _ => none
  | .decStatusFields _ => none
  | .decodeStatus _ _ => none

/-- DEC_TEXT, then DEC_FLOAT on its text; the first stage that gives no `Ok` decides. -/
def replyNumber (k : Option Nat) (buf : Bytes) : Response :=
  match respDecText buf with
  | .ok (.text t) => respDecFloat t k
  | other => other

/-- The four pipelines of R105. -/
def decodeReply : ReplyKind → Bytes → Response
  | .text, buf => respDecText buf
  | .voltage, buf => replyNumber none buf
  | .current, buf => replyNumber (some Config.currentMaxChars) buf
  | .status, buf => respDecStatusRaw buf

/-! ## Retry loops, R133 and R147 -/

/-- The first buffer that is not empty, of at most `n`. -/
def firstNonEmpty : Nat → List Bytes → Option Bytes
  | 0, _ => none
  | _ + 1, [] => none
  | n + 1, buf :: rest => if buf = [] then firstNonEmpty n rest else some buf

/-- A query transaction: the first non-empty reply, or NoResponseError naming the command after ATTEMPTS empty ones. -/
def transact (command : Bytes) (reads : List Bytes) : Except ErrKind Bytes :=
  match firstNonEmpty Config.attempts reads with
  | some buf => .ok buf
  | none => .error (.noResponse command)

/-- The first buffer that DEC_STATUS_RAW accepts, of at most `n`. -/
def firstStatusByte : Nat → List Bytes → Option Byte
  | 0, _ => none
  | _ + 1, [] => none
  | n + 1, buf :: rest =>
    match respDecStatusRaw buf with
    | .ok (.byte b) => some b
    | _ => firstStatusByte n rest

/-- The outer status loop of R133. -/
def statusLoop (reads : List Bytes) : Except ErrKind Byte :=
  match firstStatusByte Config.attempts reads with
  | some b => .ok b
  | none => .error (.noResponse (encodeQuery verbStatus none))

/-! ## Pseudo-operations, R74 -/

/-- `identify()`. -/
def facadeIdentify (reads : List Bytes) : Response :=
  match transact (encodeQuery verbIdn none) reads with
  | .ok buf => decodeReply .text buf
  | .error e => .err e

/-- `set_v(value, channel=1)`: one directive, no reply. -/
def facadeSetV (value : Rat) (channel : Nat := 1) : Instr := .encVset channel value

/-- `set_i(value, channel=1)`: one directive, no reply. -/
def facadeSetI (value : Rat) (channel : Nat := 1) : Instr := .encIset channel value

/-- `output(enabled)`: one directive, no reply. -/
def facadeOutput (enabled : Bool) : Instr := .encOut (if enabled then 1#1 else 0#1)

/-- The four queries of one channel, in the order of R131. -/
def channelQueries (ch : Nat) : List Instr := [.encVsetQ ch, .encIsetQ ch, .encVoutQ ch, .encIoutQ ch]

/-- The numeric queries of `status()`, channel-major, from channel `ch` on. -/
def queriesFrom (ch : Nat) : Nat → List Instr
  | 0 => []
  | n + 1 => channelQueries ch ++ queriesFrom (ch + 1) n

/-- The numeric queries of `status()` on a block with the given channel count. -/
def statusQueries (count : BitVec 2) : List Instr := queriesFrom 1 count.toNat

/-- One numeric query of the status read: the block encodes it, the host transacts it, the pipeline of R61 decodes the reply. -/
def queryNumber (kind : ReplyKind) (encoded : Response) (reads : List Bytes) : Response :=
  match encoded with
  | .ok (.bytes command) =>
    match transact command reads with
    | .ok buf => decodeReply kind buf
    | .error e => .err e
  | other => other

/-- The answer of the encoder operation of a channel query; no other instruction is asked here. -/
def queryResponse (count : BitVec 2) : Instr → Response
  | .encVsetQ ch => respEncVsetQ count ch
  | .encIsetQ ch => respEncIsetQ count ch
  | .encVoutQ ch => respEncVoutQ count ch
  | .encIoutQ ch => respEncIoutQ count ch
  | _ => .refused .operand

/-- The reads of R131, or the first failure (R132). Each query has its own list of attempts. -/
def collectReads (count : BitVec 2) : List Instr → List (List Bytes) → Except Response (List Rat)
  | [], _ => .ok []
  | q :: qs, attempts =>
    match queryNumber ((replyKind q).getD .voltage) (queryResponse count q) (attempts.headD []) with
    | .ok (.rat v) =>
      match collectReads count qs attempts.tail with
      | .ok vs => .ok (v :: vs)
      | .error e => .error e
    | other => .error other

/-- `status()`: the status byte, then the reads, then DECODE_STATUS; all or nothing (R132). -/
def facadeStatus (count : BitVec 2) (statusReads : List Bytes) (queryReads : List (List Bytes)) : Response :=
  match statusLoop statusReads with
  | .error e => .err e
  | .ok sb =>
    match collectReads count (statusQueries count) queryReads with
    | .error r => r
    | .ok reads => respDecodeStatus count sb reads

end Sys2Proof.Machine
end

