-- ==== Sys2Proof/Safety.lean ====
section
/-! DEFINITION. What is always so of the block: the invariant that claims use. A step of this machine never stops
(spec/10_state.md rule R25), so a safe run is one in which the invariant holds; a run in which nothing was refused is one whose
`runRefused` is false (spec/60_exceptions.md rule R142). -/

namespace Sys2Proof.Machine

/-- A command as it may stand on RSP: 4 to 11 bytes (spec/30_encoding.md rule R63), each a printable 7-bit character (R64), so
with no CR, LF or NUL anywhere (R62). -/
def wireBytesOk (tx : Bytes) : Bool :=
  decide (4 ≤ tx.length) && decide (tx.length ≤ 11) &&
    tx.all fun b => decide (0x21 ≤ b.toNat) && decide (b.toNat ≤ 0x7E)

/-- A decoded text does not end in a NUL (spec/42_response_decoder.md rule R100). -/
def textOk (s : Str) : Bool := s.getLast? != some 0x00#7

/-- What an `Ok` result always is, on a block with the given channel count: R30, R31 and R101 for the records and the number. -/
def Result.legal (count : BitVec 2) : Result → Bool
  | .bytes tx => wireBytesOk tx
  | .text s => textOk s
  | .rat q => decide (0 ≤ q.num)
  | .byte _ => true
  | .fields f => f.modes.length == count.toNat
  | .status d => d.channels.length == count.toNat

/-- The block never gives NO_RESPONSE (spec/60_exceptions.md rule R147), and an `Ok` result is as `Result.legal` says. -/
def Response.legal (count : BitVec 2) : Response → Bool
  | .ok v => v.legal count
  | .err (.decodeError _) => true
  | .err .parseError => true
  | .err (.transient _) => true
  | .err (.noResponse _) => false
  | .refused _ => true

/-- The invariant: a configured block has a legal channel count (R20); what stands on RSP is an outcome the block can give; an
unconfigured block has given none but refusals (R160); and a refusal that stands on RSP has marked the run (R142). -/
def State.Inv (s : State) : Prop :=
  (s.configured = true → s.channelCount = 1#2 ∨ s.channelCount = 2#2) ∧
  (∀ r, s.rsp = some r →
    r.legal s.channelCount = true ∧
    (s.configured = false → r.isRefused = true) ∧
    (r.isRefused = true → s.runRefused = true))

/-- The outcome codes an operation can give on a configured block, the table of spec/60_exceptions.md rule R141 with the codes of
R140. OPERAND is not among them here: an `Instr` has operands of the right types, and a request that has not is refused before
any operation runs. -/
def outcomesOf : Instr → List Byte
  | .encIdn => [0x00#8]
  | .encVset _ _ => [0x00#8, 0x12#8, 0x13#8]
  | .encIset _ _ => [0x00#8, 0x12#8, 0x13#8]
  | .encVsetQ _ => [0x00#8, 0x12#8]
  | .encIsetQ _ => [0x00#8, 0x12#8]
  | .encVoutQ _ => [0x00#8, 0x12#8]
  | .encIoutQ _ => [0x00#8, 0x12#8]
  | .encOut _ => [0x00#8]
  | .encStatusQ => [0x00#8]
  | .decText _ => [0x00#8, 0x01#8]
  | .decFloat _ _ => [0x00#8, 0x02#8, 0x14#8]
  | .decStatusRaw _ => [0x00#8, 0x03#8]
  | .decStatusFields _ => [0x00#8]
  | .decodeStatus _ _ => [0x00#8, 0x15#8]

/-- The queries of spec/30_encoding.md rule R61. -/
def isQuery : Instr → Bool
  | .encIdn => true
  | .encVset _ _ => false
  | .encIset _ _ => false
  | .encVsetQ _ => true
  | .encIsetQ _ => true
  | .encVoutQ _ => true
  | .encIoutQ _ => true
  | .encOut _ => false
  | .encStatusQ => true
  | .decText _ => false
  | .decFloat _ _ => false
  | .decStatusRaw _ => false
  | .decStatusFields _ => false
  | .decodeStatus _ _ => false

/-- The directives of spec/30_encoding.md rule R61. -/
def isDirective : Instr → Bool
  | .encIdn => false
  | .encVset _ _ => true
  | .encIset _ _ => true
  | .encVsetQ _ => false
  | .encIsetQ _ => false
  | .encVoutQ _ => false
  | .encIoutQ _ => false
  | .encOut _ => true
  | .encStatusQ => false
  | .decText _ => false
  | .decFloat _ _ => false
  | .decStatusRaw _ => false
  | .decStatusFields _ => false
  | .decodeStatus _ _ => false

/-! ## Terms of the claims, written apart from the definitions they are about -/

/-- `n` is an integer nearest to `x`, the even one where `x` lies halfway between two (spec/30_encoding.md rule R68; the tie rule is
the spec's decision D6). -/
def IsNearestEven (x : Rat) (n : Nat) : Prop := 2 * |x - n| ≤ 1 ∧ (2 * |x - n| = 1 → n % 2 = 0)

/-- The ASCII code of a digit below 10 (R64). -/
def digitByte (d : Nat) : Byte := BitVec.ofNat 8 (0x30 + d)

/-- The text of `n` hundredths, below 100.00: one or two integer digits, a dot and two decimals. No leading zero is the spec's
decision D7. -/
def voltageText (n : Nat) : Bytes :=
  (if n < 1000 then [digitByte (n / 100)] else [digitByte (n / 1000), digitByte (n / 100 % 10)]) ++
    [0x2E#8, digitByte (n / 10 % 10), digitByte (n % 10)]

/-- The text of `n` thousandths, below 10.000: one integer digit, a dot and three decimals. -/
def currentText (n : Nat) : Bytes :=
  [digitByte (n / 1000), 0x2E#8, digitByte (n / 100 % 10), digitByte (n / 10 % 10), digitByte (n % 10)]

/-- The text as bytes, one a character (spec/20_memory.md rules R43 and R44). -/
def asBytes (s : Str) : Bytes := s.map fun c => c.zeroExtend 8

/-- Query `j` of channel `ch` in a status read with its pipeline, the table of spec/43_status_decoder.md rule R131. -/
def readTemplate (ch : Nat) : Nat → Bytes × ReplyKind
  | 0 => ([0x56#8, 0x53#8, 0x45#8, 0x54#8, digitByte ch, 0x3F#8], .voltage)
  | 1 => ([0x49#8, 0x53#8, 0x45#8, 0x54#8, digitByte ch, 0x3F#8], .current)
  | 2 => ([0x56#8, 0x4F#8, 0x55#8, 0x54#8, digitByte ch, 0x3F#8], .voltage)
  | _ => ([0x49#8, 0x4F#8, 0x55#8, 0x54#8, digitByte ch, 0x3F#8], .current)

/-- What one query of a status read gives, from what the transport delivers for it: the failure of its transaction, or what its
pipeline gives. -/
def readAnswer (query : Bytes × ReplyKind) (attempts : List Bytes) : Response :=
  match transact query.1 attempts with
  | .ok reply => decodeReply query.2 reply
  | .error e => .err e

/-- READS[n] of a status read (R131): query `n % 4` of channel `n / 4 + 1`. -/
def statusRead (queryReads : List (List Bytes)) (n : Nat) : Response :=
  readAnswer (readTemplate (n / 4 + 1) (n % 4)) (queryReads.getD n [])

/-- On a configured block, a request with this selector whose slots are not exactly the operation's, or hold a value outside
its slot's type, is refused with `Refused(OPERAND)` (spec/10_state.md rule R24). -/
def RefusesOtherOperands (opsel : BitVec 4) : Prop :=
  ∀ (s : State) (r : Request) (rest : List Input), s.configured = true → s.pending = .request r :: rest →
    r.opsel = opsel → r.wellFormed = false →
      step s = .next { s with pending := rest, rsp := some (.refused .operand), runRefused := true }

end Sys2Proof.Machine
end

