-- ==== Sys2Proof/Certificates/Slice0/Obligations.lean ====
section
/-! DEFINITION. The statements for the provers. Each is about the block in every state that meets its hypotheses. A next state
written as an update of the state before it is the frame as well: every field not named is unchanged. -/

open Sys2Proof Sys2Proof.Machine

/-! ## Reset and the unconfigured block -/

/-- R160 and R161 (the spec's decisions D4 and D21). That `State.reset` has count 1 is the model's choice (log 1); that an accepted
reset leaves RSP empty is too (log 4). -/
def Obligations.ResetLeavesTheStateTheSpecGives : Prop :=
  (∀ n : BitVec 2, n = 1#2 ∨ n = 2#2 →
    step { State.powerOn with pending := [.reset n.toNat] } = .next (State.afterReset n) ∧
    (State.afterReset n).channelCount = n ∧ (State.afterReset n).configured = true) ∧
  State.powerOn.configured = false ∧ State.reset = State.afterReset 1#2

/-- R160 (decision D4): accepted exactly for 1 and 2; a refused reset leaves CFG and `configured` unchanged. Where the refusal is
shown, and what an accepted reset leaves on RSP, is the model's choice (logs 4 and 6). -/
def Obligations.ResetAcceptsExactlyOneAndTwo : Prop :=
  ∀ (s : State) (n : Nat) (rest : List Input), s.pending = .reset n :: rest →
    ((n = 1 ∨ n = 2) →
      step s = .next { s with pending := rest, channelCount := BitVec.ofNat 2 n, configured := true, rsp := none }) ∧
    (¬ (n = 1 ∨ n = 2) →
      step s = .next { s with pending := rest, rsp := some (.refused .config), runRefused := true })

/-- R160 and R143 (decisions D21 and D34): before the first accepted reset every request, also a reserved or a wrongly shaped one, is
refused with `Refused(CONFIG)`. -/
def Obligations.UnconfiguredBlockRefusesEveryRequest : Prop :=
  ∀ s : State, s.configured = false →
    (∀ (r : Request) (rest : List Input), s.pending = .request r :: rest →
      step s = .next { s with pending := rest, rsp := some (.refused .config), runRefused := true }) ∧
    (∀ i : Instr, exec i s = .next { s with rsp := some (.refused .config), runRefused := true })

/-- R161: "Before any reset, CFG.CHANNEL_COUNT holds no value, and a model must not read one from it." Two unconfigured states that
differ only there step to states that differ at most there, and not even there once the reset is accepted. -/
def Obligations.ChannelCountIsNeverReadBeforeReset : Prop :=
  ∀ (s t : State) (c : BitVec 2), s.configured = false → step s = .next t →
    ∃ u, step { s with channelCount := c } = .next u ∧ u = { t with channelCount := u.channelCount } ∧
      (t.configured = true → u = t) ∧ (t.configured = false → t.channelCount = s.channelCount ∧ u.channelCount = c)

/-! ## Requests, decoding and encoding -/

/-- A step presents the first input's decoded instruction to its meaning; with nothing presented nothing changes (log 3). -/
def Obligations.StepRunsTheDecodedRequest : Prop :=
  ∀ s : State,
    (∀ (r : Request) (rest : List Input) (i : Instr), s.pending = .request r :: rest → decode r = .ok i →
      step s = exec i { s with pending := rest }) ∧
    (s.pending = [] → step s = .next s)

/-- R57 (decision D35). -/
def Obligations.ReservedSelectorsAreRefusedWhateverTheirOperands : Prop :=
  ∀ (s : State) (r : Request) (rest : List Input), s.configured = true → s.pending = .request r :: rest →
    (r.opsel = 0xE#4 ∨ r.opsel = 0xF#4) →
      step s = .next { s with pending := rest, rsp := some (.refused .reservedOp), runRefused := true }

/-- R24 and R56 (decision D34), for each of the 14 operations. -/
def Obligations.WronglyShapedRequestsAreRefused : Prop :=
  ∀ opsel : BitVec 4, opsel.toNat < 14 → RefusesOtherOperands opsel

/-- Decoding the request of an instruction gives it back, at every value of its operands. -/
def Obligations.DecodeOfEncodeIsTheInstruction : Prop :=
  ∀ i : Instr, decode (encode i) = .ok i

/-- The other direction: a request that decodes is the one request of its instruction, so no slot is dropped. -/
def Obligations.DecodedRequestIsTheEncoding : Prop :=
  ∀ (r : Request) (i : Instr), decode r = .ok i → r = encode i

/-- The decoder accepts exactly the requests that the tables of R24 and R56 describe. That a DEC_FLOAT request without a K slot is
among them, K = none, is the model's reading (log 7: DEDUCED, unsafe). -/
def Obligations.DecoderAcceptsExactlyWellFormedRequests : Prop :=
  ∀ r : Request, (∃ i, decode r = .ok i) ↔ r.wellFormed = true

/-- Request words of R55 written out, at least one a family. -/
def Obligations.RequestWordsOfTheMapDecode : Prop :=
  decode { opsel := 0x0#4 } = .ok .encIdn ∧
  decode { opsel := 0x1#4, slots := { ch := some (.num 1), val := some (.num (mkRat 25 2)) } } = .ok (.encVset 1 (mkRat 25 2)) ∧
  decode { opsel := 0x7#4, slots := { flag := some (.num 1) } } = .ok (.encOut 1#1) ∧
  decode { opsel := 0x9#4, slots := { buf := some (.seq [65, 0]) } } = .ok (.decText [0x41#8, 0x00#8]) ∧
  decode { opsel := 0xA#4, slots := { s := some (.seq [49]), k := some (.num 5) } } = .ok (.decFloat [0x31#7] (some 5)) ∧
  decode { opsel := 0xB#4, slots := { buf := some (.seq [255]) } } = .ok (.decStatusRaw [0xFF#8]) ∧
  decode { opsel := 0xD#4, slots := { sb := some (.num 65), reads := some (.seq [1, 2, 3, 4]) } } =
    .ok (.decodeStatus 0x41#8 [1, 2, 3, 4])

/-! ## The frame encoder -/

/-- R80 and R88: selector, bytes, and the refusal of any operand. -/
def Obligations.IdentifyAndStatusQueriesAreTheirFixedBytes : Prop :=
  (∀ s : State, s.configured = true →
    exec .encIdn s = .next { s with rsp := some (.ok (.bytes [0x2A#8, 0x49#8, 0x44#8, 0x4E#8, 0x3F#8])) } ∧
    exec .encStatusQ s =
      .next { s with rsp := some (.ok (.bytes [0x53#8, 0x54#8, 0x41#8, 0x54#8, 0x55#8, 0x53#8, 0x3F#8])) }) ∧
  decode { opsel := 0x0#4 } = .ok .encIdn ∧ RefusesOtherOperands 0x0#4 ∧
  decode { opsel := 0x8#4 } = .ok .encStatusQ ∧ RefusesOtherOperands 0x8#4

/-- R81 with R69 and R77 (the spec's decisions D6, D7, D8 and D9): the bytes on a legal channel and an admitted value, the range
refusal on a legal channel, and the channel refusal before the value is looked at. -/
def Obligations.VsetDirectiveIsVerbChannelAndTwoDecimals : Prop :=
  (∀ (s : State) (ch : Nat) (x : Rat) (n : Nat), s.configured = true →
    (1 ≤ ch → ch ≤ s.channelCount.toNat → 0 ≤ x → IsNearestEven (x * 100) n →
      (n ≤ 9999 → exec (.encVset ch x) s = .next
        { s with rsp := some (.ok (.bytes ([0x56#8, 0x53#8, 0x45#8, 0x54#8, digitByte ch, 0x3A#8] ++ voltageText n))) }) ∧
      (9999 < n → exec (.encVset ch x) s = .next { s with rsp := some (.refused .range), runRefused := true })) ∧
    (1 ≤ ch → ch ≤ s.channelCount.toNat → x < 0 →
      exec (.encVset ch x) s = .next { s with rsp := some (.refused .range), runRefused := true }) ∧
    (¬ (1 ≤ ch ∧ ch ≤ s.channelCount.toNat) →
      exec (.encVset ch x) s = .next { s with rsp := some (.refused .channel), runRefused := true })) ∧
  RefusesOtherOperands 0x1#4

/-- R82 with R69 and R77 (the spec's decisions D6, D7, D8 and D9). -/
def Obligations.IsetDirectiveIsVerbChannelAndThreeDecimals : Prop :=
  (∀ (s : State) (ch : Nat) (x : Rat) (n : Nat), s.configured = true →
    (1 ≤ ch → ch ≤ s.channelCount.toNat → 0 ≤ x → IsNearestEven (x * 1000) n →
      (n ≤ 9999 → exec (.encIset ch x) s = .next
        { s with rsp := some (.ok (.bytes ([0x49#8, 0x53#8, 0x45#8, 0x54#8, digitByte ch, 0x3A#8] ++ currentText n))) }) ∧
      (9999 < n → exec (.encIset ch x) s = .next { s with rsp := some (.refused .range), runRefused := true })) ∧
    (1 ≤ ch → ch ≤ s.channelCount.toNat → x < 0 →
      exec (.encIset ch x) s = .next { s with rsp := some (.refused .range), runRefused := true }) ∧
    (¬ (1 ≤ ch ∧ ch ≤ s.channelCount.toNat) →
      exec (.encIset ch x) s = .next { s with rsp := some (.refused .channel), runRefused := true })) ∧
  RefusesOtherOperands 0x2#4

/-- R83 to R86: the bytes on a legal channel, the channel refusal, the selectors and the operand refusals. -/
def Obligations.ChannelQueriesAreVerbChannelAndQuestionMark : Prop :=
  (∀ (s : State) (ch : Nat), s.configured = true →
    (1 ≤ ch → ch ≤ s.channelCount.toNat →
      exec (.encVsetQ ch) s = .next
        { s with rsp := some (.ok (.bytes [0x56#8, 0x53#8, 0x45#8, 0x54#8, digitByte ch, 0x3F#8])) } ∧
      exec (.encIsetQ ch) s = .next
        { s with rsp := some (.ok (.bytes [0x49#8, 0x53#8, 0x45#8, 0x54#8, digitByte ch, 0x3F#8])) } ∧
      exec (.encVoutQ ch) s = .next
        { s with rsp := some (.ok (.bytes [0x56#8, 0x4F#8, 0x55#8, 0x54#8, digitByte ch, 0x3F#8])) } ∧
      exec (.encIoutQ ch) s = .next
        { s with rsp := some (.ok (.bytes [0x49#8, 0x4F#8, 0x55#8, 0x54#8, digitByte ch, 0x3F#8])) }) ∧
    (¬ (1 ≤ ch ∧ ch ≤ s.channelCount.toNat) →
      exec (.encVsetQ ch) s = .next { s with rsp := some (.refused .channel), runRefused := true } ∧
      exec (.encIsetQ ch) s = .next { s with rsp := some (.refused .channel), runRefused := true } ∧
      exec (.encVoutQ ch) s = .next { s with rsp := some (.refused .channel), runRefused := true } ∧
      exec (.encIoutQ ch) s = .next { s with rsp := some (.refused .channel), runRefused := true })) ∧
  (∀ ch : Nat,
    decode { opsel := 0x3#4, slots := { ch := some (.num ch) } } = .ok (.encVsetQ ch) ∧
    decode { opsel := 0x4#4, slots := { ch := some (.num ch) } } = .ok (.encIsetQ ch) ∧
    decode { opsel := 0x5#4, slots := { ch := some (.num ch) } } = .ok (.encVoutQ ch) ∧
    decode { opsel := 0x6#4, slots := { ch := some (.num ch) } } = .ok (.encIoutQ ch)) ∧
  RefusesOtherOperands 0x3#4 ∧ RefusesOtherOperands 0x4#4 ∧ RefusesOtherOperands 0x5#4 ∧ RefusesOtherOperands 0x6#4

/-- R87 and R60: four bytes, no channel, no separator. -/
def Obligations.OutputDirectiveIsOutAndOneDigit : Prop :=
  (∀ s : State, s.configured = true →
    exec (.encOut 1#1) s = .next { s with rsp := some (.ok (.bytes [0x4F#8, 0x55#8, 0x54#8, 0x31#8])) } ∧
    exec (.encOut 0#1) s = .next { s with rsp := some (.ok (.bytes [0x4F#8, 0x55#8, 0x54#8, 0x30#8])) }) ∧
  decode { opsel := 0x7#4, slots := { flag := some (.num 1) } } = .ok (.encOut 1#1) ∧
  decode { opsel := 0x7#4, slots := { flag := some (.num 0) } } = .ok (.encOut 0#1) ∧
  RefusesOtherOperands 0x7#4

/-- R62, over every instruction that answers with a command. -/
def Obligations.CommandsHaveNoTerminator : Prop :=
  ∀ (i : Instr) (s t : State) (tx : Bytes), exec i s = .next t → t.rsp = some (.ok (.bytes tx)) →
    (∀ b ∈ tx, b ≠ 0x0D#8 ∧ b ≠ 0x0A#8 ∧ b ≠ 0x00#8) ∧
    (isQuery i = true → tx.getLast? = some 0x3F#8) ∧
    (isDirective i = true → ∃ d, d < 10 ∧ tx.getLast? = some (digitByte d)) ∧
    (isQuery i = true ∨ isDirective i = true)

/-- R67. -/
def Obligations.PaddedNumeralIsTheNumeralBehindZeros : Prop :=
  ∀ n p : Nat, 1 ≤ p → n < 10 ^ p →
    (dec n).length ≤ p ∧ pad n p = List.replicate (p - (dec n).length) (digitChar 0) ++ dec n ∧ (pad n p).length = p

/-- R66 (decision D7): digits only, of the right value, with no leading zero but in "0" itself. -/
def Obligations.NumeralIsTheShortestOne : Prop :=
  ∀ n : Nat, IsDigits (dec n) ∧ digitsVal (dec n) = n ∧ (n ≠ 0 → (dec n).head? ≠ some (digitChar 0)) ∧
    (n = 0 → dec n = [digitChar 0])

/-- R68 (decision D6): the one nearest integer, the even one at a tie. -/
def Obligations.RoundingIsToNearestEven : Prop :=
  ∀ (x : Rat) (n : Nat), 0 ≤ x → (rne x = n ↔ IsNearestEven x n)

/-- R43 and R41 (decisions D17 and D18): the encoders' loop puts character i in byte i and nothing else. -/
def Obligations.TransmitBufferHoldsTheTextByteByByte : Prop :=
  ∀ s : Str, (txOf s).length = s.length ∧ ∀ i : Nat, (txOf s)[i]? = (s[i]?).map fun c => c.zeroExtend 8

/-! ## The response decoder -/

/-- R44, with R100: trailing NULs go, and the kept 7-bit bytes are the text, byte i as character i. -/
def Obligations.DecodedTextIsTheBytesBeforeTheTrailingNuls : Prop :=
  ∀ (s : State) (kept : Bytes) (n : Nat), s.configured = true → (∀ b ∈ kept, b.toNat ≤ 0x7F) →
    kept.getLast? ≠ some 0x00#8 →
    ∃ txt : Str, asBytes txt = kept ∧ exec (.decText (kept ++ List.replicate n 0x00#8)) s =
      .next { s with rsp := some (.ok (.text txt)) }

/-- R100 (decisions D31 and D27): the index of the first byte above 0x7F, NULs before or behind it notwithstanding. -/
def Obligations.DecodeErrorNamesTheFirstHighByte : Prop :=
  ∀ (s : State) (pre post : Bytes) (b : Byte), s.configured = true → (∀ c ∈ pre, c.toNat ≤ 0x7F) → 0x7F < b.toNat →
    exec (.decText (pre ++ [b] ++ post)) s = .next { s with rsp := some (.err (.decodeError pre.length)) }

/-- R101 with R70 and R102 (decisions D5 and D10): truncation first; a strict numeral gives its exact value. -/
def Obligations.StrictNumeralGivesItsExactValue : Prop :=
  ∀ (s : State) (txt t I F : Str) (k : Option Nat), s.configured = true →
    (k = none ∧ t = txt ∨ ∃ n, k = some n ∧ t = txt.take n) → IsNumeral t I F →
    exec (.decFloat txt k) s =
      .next { s with rsp := some (.ok (.rat ((digitsVal (I ++ F) : Rat) / 10 ^ F.length))) }

/-- R101 with R71 (decision D10): what is no strict numeral is refused if it is lenient, and a ParseError if it is not. -/
def Obligations.OtherTextIsRefusedOrAParseError : Prop :=
  ∀ (s : State) (txt t : Str) (k : Option Nat), s.configured = true →
    (k = none ∧ t = txt ∨ ∃ n, k = some n ∧ t = txt.take n) → (∀ I F, ¬ IsNumeral t I F) →
    (IsLenient t → exec (.decFloat txt k) s = .next { s with rsp := some (.refused .numericForm), runRefused := true }) ∧
    (¬ IsLenient t → exec (.decFloat txt k) s = .next { s with rsp := some (.err .parseError) })

/-- The strict recogniser reads exactly the grammar of R70, with its value. -/
def Obligations.StrictRecogniserIsTheGrammar : Prop :=
  ∀ (t : Str) (v : Rat), parseNumeral t = some v ↔
    ∃ I F, IsNumeral t I F ∧ v = (digitsVal (I ++ F) : Rat) / 10 ^ F.length

/-- The lenient recogniser reads exactly the grammar of R71. -/
def Obligations.LenientRecogniserIsTheGrammar : Prop :=
  ∀ t : Str, isLenient t = true ↔ IsLenient t

/-- R71: "Every strict numeral also matches lenient". -/
def Obligations.StrictNumeralsAreLenient : Prop :=
  ∀ t I F : Str, IsNumeral t I F → IsLenient t

/-- R90, for voltages: what ENC_VSET writes behind the colon, read back through DEC_TEXT and DEC_FLOAT, is within half a unit of
what was set (the spec infers it; decisions D5 to D8). -/
def Obligations.VoltageRoundTripsToWithinHalfAUnit : Prop :=
  ∀ (s t : State) (ch : Nat) (x : Rat) (tx : Bytes), s.configured = true → exec (.encVset ch x) s = .next t →
    t.rsp = some (.ok (.bytes tx)) →
    ∃ (txt : Str) (n : Nat), tx = [0x56#8, 0x53#8, 0x45#8, 0x54#8, digitByte ch, 0x3A#8] ++ asBytes txt ∧
      exec (.decText (asBytes txt)) s = .next { s with rsp := some (.ok (.text txt)) } ∧
      exec (.decFloat txt none) s = .next { s with rsp := some (.ok (.rat ((n : Rat) / 100))) } ∧
      IsNearestEven (x * 100) n ∧ |(n : Rat) / 100 - x| ≤ 1 / 200

/-- R90, for currents, also through the truncation to 5 characters. -/
def Obligations.CurrentRoundTripsToWithinHalfAUnit : Prop :=
  ∀ (s t : State) (ch : Nat) (x : Rat) (tx : Bytes), s.configured = true → exec (.encIset ch x) s = .next t →
    t.rsp = some (.ok (.bytes tx)) →
    ∃ (txt : Str) (n : Nat), tx = [0x49#8, 0x53#8, 0x45#8, 0x54#8, digitByte ch, 0x3A#8] ++ asBytes txt ∧ txt.length = 5 ∧
      exec (.decText (asBytes txt)) s = .next { s with rsp := some (.ok (.text txt)) } ∧
      exec (.decFloat txt none) s = .next { s with rsp := some (.ok (.rat ((n : Rat) / 1000))) } ∧
      exec (.decFloat txt (some 5)) s = .next { s with rsp := some (.ok (.rat ((n : Rat) / 1000))) } ∧
      IsNearestEven (x * 1000) n ∧ |(n : Rat) / 1000 - x| ≤ 1 / 2000

/-! ## The status decoder -/

/-- R120 (decision D16): one byte is the status byte, whatever it is; any other length is TRANSIENT with the length. -/
def Obligations.StatusReplyIsExactlyOneByte : Prop :=
  ∀ s : State, s.configured = true →
    (∀ b : Byte, exec (.decStatusRaw [b]) s = .next { s with rsp := some (.ok (.byte b)) }) ∧
    (∀ buf : Bytes, buf.length ≠ 1 → exec (.decStatusRaw buf) s = .next { s with rsp := some (.err (.transient buf.length)) })

/-- R27 and R28: the mode bits and the tracking field of the decoded status byte. -/
def Obligations.ModeAndTrackingDecodeByTheirEnumerations : Prop :=
  ∀ (s : State) (b : Byte), s.configured = true → s.channelCount = 1#2 ∨ s.channelCount = 2#2 →
    ∃ f : StatusFields, exec (.decStatusFields b) s = .next { s with rsp := some (.ok (.fields f)) } ∧
      f.modes[0]? = some (if b.getLsbD 0 then .cc else .cv) ∧
      (s.channelCount = 2#2 → f.modes[1]? = some (if b.getLsbD 1 then .cc else .cv)) ∧
      (b.extractLsb' 2 2 = 0#2 → f.track = .independent) ∧ (b.extractLsb' 2 2 = 1#2 → f.track = .series) ∧
      (b.extractLsb' 2 2 = 2#2 → f.track = .reserved) ∧ (b.extractLsb' 2 2 = 3#2 → f.track = .parallel)

/-- R121 (decisions D11 and D12): the whole record, for both channel counts. -/
def Obligations.StatusFieldsAreTheNamedBits : Prop :=
  ∀ (s : State) (b : Byte), s.configured = true → s.channelCount = 1#2 ∨ s.channelCount = 2#2 →
    ∃ track : Track, exec (.decStatusFields b) s = .next { s with rsp := some (.ok (.fields
      { modes := (if b.getLsbD 0 then Mode.cc else Mode.cv) ::
          (if s.channelCount = 2#2 then [if b.getLsbD 1 then Mode.cc else Mode.cv] else [])
        track := track, beep := b.getLsbD 4, lock := b.getLsbD 5, output := b.getLsbD 6 })) } ∧
      track = [Track.independent, Track.series, Track.reserved, Track.parallel].getD (b.toNat / 4 % 4) Track.reserved

/-- R122 (the spec infers it from R121): the outcome depends on exactly bits 6..0 with two channels, and on bits 6..2 and 0 with
one. -/
def Obligations.StatusFieldsDependOnExactlyTheNamedBits : Prop :=
  ∀ (s : State) (b c : Byte), s.configured = true →
    (s.channelCount = 2#2 →
      (exec (.decStatusFields b) s = exec (.decStatusFields c) s ↔ ∀ i < 7, b.getLsbD i = c.getLsbD i)) ∧
    (s.channelCount = 1#2 →
      (exec (.decStatusFields b) s = exec (.decStatusFields c) s ↔ ∀ i < 7, i ≠ 1 → b.getLsbD i = c.getLsbD i))

/-- R130 (decision D14): four reads a channel, in the order of R131, beside the fields of the status byte. -/
def Obligations.DeviceStatusTakesFourReadsAChannel : Prop :=
  ∀ (s : State) (b : Byte) (reads : List Rat), s.configured = true → s.channelCount = 1#2 ∨ s.channelCount = 2#2 →
    reads.length = 4 * s.channelCount.toNat →
    ∃ (f : StatusFields) (channels : List ChannelStatus),
      exec (.decStatusFields b) s = .next { s with rsp := some (.ok (.fields f)) } ∧
      exec (.decodeStatus b reads) s = .next { s with rsp := some (.ok (.status
        { channels := channels, track := f.track, beep := f.beep, lock := f.lock, output := f.output })) } ∧
      channels.length = s.channelCount.toNat ∧
      ∀ (c : Nat) (d : ChannelStatus), channels[c]? = some d →
        f.modes[c]? = some d.mode ∧ reads[4 * c]? = some d.setVoltage ∧ reads[4 * c + 1]? = some d.setCurrent ∧
        reads[4 * c + 2]? = some d.measuredVoltage ∧ reads[4 * c + 3]? = some d.measuredCurrent

/-- R130 (decision D14). -/
def Obligations.WrongNumberOfReadsIsRefused : Prop :=
  ∀ (s : State) (b : Byte) (reads : List Rat), s.configured = true → reads.length ≠ 4 * s.channelCount.toNat →
    exec (.decodeStatus b reads) s = .next { s with rsp := some (.refused .arity), runRefused := true }

/-! ## The whole block -/

/-- From every state that meets the invariant, a step gives one that meets it. Two clauses rest on the model's choices: an accepted
reset to another count cannot leave a record of the old one on RSP because it empties RSP (log 4), and a refusal on RSP has marked the
run (log 5). -/
def Obligations.EveryStepKeepsTheInvariant : Prop :=
  ∀ s t : State, s.Inv → step s = .next t → t.Inv

/-- The invariant holds right after reset, and before any reset, whatever inputs are presented then. -/
def Obligations.InvariantHoldsAtReset : Prop :=
  ∀ inputs : List Input, ({ State.reset with pending := inputs } : State).Inv ∧
    ({ State.powerOn with pending := inputs } : State).Inv

/-- R25 ("The block answers every request"): every step ends in a next state, and every input but an accepted reset leaves an outcome
on RSP. -/
def Obligations.EveryInputIsAnswered : Prop :=
  ∀ s : State, ∃ t, step s = .next t ∧
    ∀ (i : Input) (rest : List Input), s.pending = i :: rest → t.pending = rest ∧
      (t.rsp = none ↔ i = .reset 1 ∨ i = .reset 2)

/-- R20, R21 and R144 (decisions D3, D4 and D19): no operation, whatever its outcome, writes the block's state. -/
def Obligations.NoOperationWritesTheBlock : Prop :=
  ∀ (i : Instr) (s t : State), exec i s = .next t →
    t.channelCount = s.channelCount ∧ t.configured = s.configured ∧ t.pending = s.pending ∧
    ∃ r : Response, t.rsp = some r ∧ (t.runRefused = true ↔ s.runRefused = true ∨ ∃ why, r = .refused why)

/-- R20 and R160: only an accepted reset input changes CFG or `configured`, over every step. -/
def Obligations.OnlyAnAcceptedResetConfigures : Prop :=
  ∀ s t : State, step s = .next t → (t.channelCount ≠ s.channelCount ∨ t.configured ≠ s.configured) →
    ∃ rest, (s.pending = .reset 1 :: rest ∨ s.pending = .reset 2 :: rest) ∧ t.configured = true ∧
      (t.channelCount = 1#2 ∨ t.channelCount = 2#2)

/-- R21 and R48: the outcome is a function of the request and of CFG, and asking again gives it again. -/
def Obligations.OutcomeIsAFunctionOfRequestAndConfiguration : Prop :=
  ∀ (i : Instr) (s s' t t' : State), s.configured = s'.configured → s.channelCount = s'.channelCount →
    exec i s = .next t → exec i s' = .next t' → t.rsp = t'.rsp ∧ exec i t = .next t

/-- R49: "the order of two operations never changes either outcome". -/
def Obligations.OrderOfOperationsChangesNoOutcome : Prop :=
  ∀ (i j : Instr) (s si sj sij sji : State), exec i s = .next si → exec j s = .next sj → exec j si = .next sij →
    exec i sj = .next sji → sij.rsp = sj.rsp ∧ sji.rsp = si.rsp ∧ sij.runRefused = sji.runRefused

/-- R141 with the codes of R140 (the spec infers the table from its rules): on a configured block no operation gives an outcome
outside its row, so none gives NO_RESPONSE. -/
def Obligations.OutcomesStayInTheirRow : Prop :=
  ∀ (i : Instr) (s t : State) (r : Response), s.configured = true → exec i s = .next t → t.rsp = some r →
    r.code ∈ outcomesOf i

/-- R140 (decision D15): the code of each outcome. Each code is one outcome's and no other's, whatever its info; the codes of a group
are that group's. -/
def Obligations.OutcomeCodesTellTheOutcomesApart : Prop :=
  (∀ r : Response,
    (r.code = 0x00#8 ↔ ∃ v, r = .ok v) ∧
    (r.code = 0x01#8 ↔ ∃ index, r = .err (.decodeError index)) ∧
    (r.code = 0x02#8 ↔ r = .err .parseError) ∧
    (r.code = 0x03#8 ↔ ∃ length, r = .err (.transient length)) ∧
    (r.code = 0x04#8 ↔ ∃ command, r = .err (.noResponse command)) ∧
    (r.code = 0x10#8 ↔ r = .refused .reservedOp) ∧
    (r.code = 0x11#8 ↔ r = .refused .operand) ∧
    (r.code = 0x12#8 ↔ r = .refused .channel) ∧
    (r.code = 0x13#8 ↔ r = .refused .range) ∧
    (r.code = 0x14#8 ↔ r = .refused .numericForm) ∧
    (r.code = 0x15#8 ↔ r = .refused .arity) ∧
    (r.code = 0x16#8 ↔ r = .refused .config)) ∧
  (∀ r : Response, (0x10 ≤ r.code.toNat ∧ r.code.toNat ≤ 0x16) ↔ ∃ why, r = .refused why) ∧
  (∀ r : Response, (1 ≤ r.code.toNat ∧ r.code.toNat ≤ 4) ↔ ∃ e, r = .err e) ∧
  (∀ a b : RefusalReason, (Response.refused a).code = (Response.refused b).code → a = b)

/-! ## What the host builds -/

/-- R105 and R106 (the spec infers R106; decision D25): in each text pipeline a byte above 0x7F decides, also one past the fifth
character. -/
def Obligations.HighByteDecidesEveryTextPipeline : Prop :=
  ∀ (kind : ReplyKind) (pre post : Bytes) (b : Byte), kind ≠ .status → (∀ c ∈ pre, c.toNat ≤ 0x7F) → 0x7F < b.toNat →
    decodeReply kind (pre ++ [b] ++ post) = .err (.decodeError pre.length)

/-- R105: the current pipeline reads the first five characters of the decoded text, so 7-bit noise behind them changes nothing,
NULs in it or behind it among them (R168, which the spec infers). The fifth byte is no NUL: with one, the stripping of trailing NULs
would tell the two replies apart. -/
def Obligations.NoiseBehindACurrentReadingIsCutOff : Prop :=
  ∀ (reading noise : Bytes), reading.length = 5 → reading.getLast? ≠ some 0x00#8 → (∀ b ∈ noise, b.toNat ≤ 0x7F) →
    decodeReply .current (reading ++ noise) = decodeReply .current reading

/-- R147, and the source's examples SX7 and SX8: the first non-empty reply of at most three, else NoResponseError naming the
command. -/
def Obligations.TransactionEndsWithTheFirstReply : Prop :=
  ∀ (command reply : Bytes) (rest : List Bytes), reply ≠ [] →
    transact command (reply :: rest) = .ok reply ∧ transact command ([] :: reply :: rest) = .ok reply ∧
    transact command ([] :: [] :: reply :: rest) = .ok reply ∧
    transact command ([] :: [] :: [] :: rest) = .error (.noResponse command)

/-- R132 with R131, R105 and R130 (decisions D14 and D30): a status read is all or nothing. Where the status loop fails, or a query
does, it is the first such failure; where all succeed it is a DeviceStatus with every channel, which holds the values that the
pipelines gave; and an `Ok` is given in no other case. The order, the status byte first, is R74's (decision D14). That attempts which
are not given count as empty reads, and that NO_RESPONSE carries the command's bytes, is the model's choice (log 12). -/
def Obligations.StatusReadIsAllOrNothing : Prop :=
  ∀ (count : BitVec 2) (statusReads : List Bytes) (queryReads : List (List Bytes)), count = 1#2 ∨ count = 2#2 →
    (∀ e, statusLoop statusReads = .error e → facadeStatus count statusReads queryReads = .err e) ∧
    (∀ sb, statusLoop statusReads = .ok sb →
      (∀ n < 4 * count.toNat, (∀ m < n, ∃ v, statusRead queryReads m = .ok v) → (∀ v, statusRead queryReads n ≠ .ok v) →
        facadeStatus count statusReads queryReads = statusRead queryReads n) ∧
      ((∀ n < 4 * count.toNat, ∃ v, statusRead queryReads n = .ok v) →
        ∃ d : DeviceStatus, facadeStatus count statusReads queryReads = .ok (.status d) ∧ d.channels.length = count.toNat ∧
          d.track = (statusFields count sb).track ∧ d.beep = (statusFields count sb).beep ∧
          d.lock = (statusFields count sb).lock ∧ d.output = (statusFields count sb).output ∧
          ∀ (c : Nat) (ch : ChannelStatus), d.channels[c]? = some ch →
            (statusFields count sb).modes[c]? = some ch.mode ∧
            statusRead queryReads (4 * c) = .ok (.rat ch.setVoltage) ∧
            statusRead queryReads (4 * c + 1) = .ok (.rat ch.setCurrent) ∧
            statusRead queryReads (4 * c + 2) = .ok (.rat ch.measuredVoltage) ∧
            statusRead queryReads (4 * c + 3) = .ok (.rat ch.measuredCurrent))) ∧
    (∀ v : Result, facadeStatus count statusReads queryReads = .ok v →
      (∃ d : DeviceStatus, v = .status d ∧ d.channels.length = count.toNat) ∧
      (∃ sb, statusLoop statusReads = .ok sb) ∧ ∀ n < 4 * count.toNat, ∃ u, statusRead queryReads n = .ok u)

/-- R133, without its times: the outer status loop repeats the read while DEC_STATUS_RAW finds no single byte, three attempts at most;
then it is NoResponseError, naming `STATUS?`. That the error carries the command's bytes is the model's choice (log 12). -/
def Obligations.StatusLoopEndsWithTheFirstSingleByte : Prop :=
  ∀ (rejected rest : List Bytes) (b : Byte), (∀ buf ∈ rejected, buf.length ≠ 1) →
    (rejected.length < 3 → statusLoop (rejected ++ [b] :: rest) = .ok b) ∧
    (3 ≤ rejected.length →
      statusLoop (rejected ++ rest) = .error (.noResponse [0x53#8, 0x54#8, 0x41#8, 0x54#8, 0x55#8, 0x53#8, 0x3F#8]))
end

