-- ==== Sys2Proof/Laws/Decode.lean ====
section
/-! SUPPORT. What the operand conversions of the decoder read from what the encoder writes. -/

namespace Sys2Proof

@[simp] theorem numNat_cast (n : Nat) : numNat (n : Rat) = some n := by
  simp [numNat]

@[simp] theorem isNatNum_cast (n : Nat) : isNatNum (n : Rat) = true := by
  simp [isNatNum]

theorem numNat_eq_some (q : Rat) (n : Nat) : numNat q = some n ↔ q = (n : Rat) := by
  constructor
  · intro h
    unfold numNat at h
    split at h
    · next hq =>
      cases h
      obtain ⟨hd, hn⟩ := hq
      have hz : ((q.num.toNat : Int) : Rat) = (q.num : Rat) := by rw [Int.toNat_of_nonneg hn]
      have hq : q = (q.num : Rat) := by
        conv_lhs => rw [← Rat.num_div_den q, hd]
        rw [Nat.cast_one, div_one]
      rw [hq, Rat.num_intCast]
      exact hz.symm.trans (Rat.intCast_natCast _)
    · cases h
  · rintro rfl
    simp

theorem isNatNum_iff (q : Rat) : isNatNum q = true ↔ ∃ n, numNat q = some n := by
  unfold numNat
  by_cases h : q.den = 1 ∧ 0 ≤ q.num
  · rw [if_pos h]; simpa [isNatNum] using h
  · rw [if_neg h]; simpa [isNatNum] using h

@[simp] theorem numBits_toNat {w : Nat} (b : BitVec w) : numBits w (b.toNat : Rat) = some b := by
  simp [numBits, b.isLt]

@[simp] theorem seqBits_map {w : Nat} (bs : List (BitVec w)) : seqBits w (bs.map fun b => (b.toNat : Rat)) = some bs := by
  induction bs with
  | nil => rfl
  | cons b bs ih => simp [seqBits, ih]

theorem numBits_eq_some {w : Nat} (q : Rat) (b : BitVec w) : numBits w q = some b ↔ q = (b.toNat : Rat) := by
  constructor
  · intro h
    unfold numBits at h
    split at h
    · next n hn =>
      split at h
      · next hlt =>
        cases h
        rw [(numNat_eq_some q n).1 hn, BitVec.toNat_ofNat, Nat.mod_eq_of_lt hlt]
      · cases h
    · cases h
  · rintro rfl
    simp

theorem seqBits_eq_some {w : Nat} (qs : List Rat) (bs : List (BitVec w)) :
    seqBits w qs = some bs ↔ qs = bs.map fun b => (b.toNat : Rat) := by
  constructor
  · induction qs generalizing bs with
    | nil => intro h; cases h; rfl
    | cons q qs ih =>
      intro h
      unfold seqBits at h
      split at h
      · next b bs' hb hbs =>
        cases h
        rw [ih _ hbs, (numBits_eq_some q b).1 hb, List.map_cons]
      · cases h
  · rintro rfl
    simp

theorem isNatNumBelow_iff (w : Nat) (q : Rat) : isNatNumBelow (2 ^ w) q = true ↔ ∃ b, numBits w q = some b := by
  rw [isNatNumBelow, Bool.and_eq_true, isNatNum_iff, decide_eq_true_eq]
  constructor
  · rintro ⟨⟨n, hn⟩, hlt⟩
    have hq := (numNat_eq_some q n).1 hn
    refine ⟨BitVec.ofNat w n, (numBits_eq_some q _).2 ?_⟩
    rw [hq, Rat.num_natCast, Int.toNat_natCast] at hlt
    rw [hq, BitVec.toNat_ofNat, Nat.mod_eq_of_lt hlt]
  · rintro ⟨b, hb⟩
    have hq := (numBits_eq_some q b).1 hb
    rw [hq]
    exact ⟨⟨_, numNat_cast _⟩, by simpa using b.isLt⟩

theorem all_isNatNumBelow_iff (w : Nat) (qs : List Rat) :
    qs.all (isNatNumBelow (2 ^ w)) = true ↔ ∃ bs, seqBits w qs = some bs := by
  induction qs with
  | nil => simp [seqBits]
  | cons q qs ih =>
    simp only [List.all_cons, Bool.and_eq_true, ih, isNatNumBelow_iff, seqBits]
    constructor
    · rintro ⟨⟨b, hb⟩, ⟨bs, hbs⟩⟩
      exact ⟨b :: bs, by simp [hb, hbs]⟩
    · rintro ⟨bs, h⟩
      split at h
      · next b bs' hb hbs => exact ⟨⟨b, hb⟩, ⟨bs', hbs⟩⟩
      · cases h

end Sys2Proof
end

