-- ==== Sys2Proof/Laws/Decoder.lean ====
section
/-! SUPPORT. The scanning functions of the decoders: each splits its text where it says, and scans past what it says. -/

namespace Sys2Proof.Machine

theorem leadDigits_append_afterDigits (t : Str) : leadDigits t ++ afterDigits t = t := by
  induction t with
  | nil => rfl
  | cons c cs ih => unfold leadDigits afterDigits; split <;> simp [ih]

theorem isDigit_of_mem_leadDigits (t : Str) : ∀ c ∈ leadDigits t, isDigit c = true := by
  induction t with
  | nil => simp [leadDigits]
  | cons c cs ih => unfold leadDigits; split <;> simp_all

/-- Digits in front of a text that does not begin with one are its leading digits. -/
theorem leadDigits_of_append (I r : Str) (h : ∀ c ∈ I, isDigit c = true) (hr : ∀ c, r.head? = some c → isDigit c = false) :
    leadDigits (I ++ r) = I ∧ afterDigits (I ++ r) = r := by
  induction I with
  | nil =>
    cases r with
    | nil => exact ⟨rfl, rfl⟩
    | cons c cs => simp [leadDigits, afterDigits, hr c rfl]
  | cons c cs ih =>
    have := ih fun x hx => h x (by simp [hx])
    simp [leadDigits, afterDigits, h c (by simp), this]

theorem before_append_fromFirst (f : Char7 → Bool) (t : Str) : before f t ++ fromFirst f t = t := by
  induction t with
  | nil => rfl
  | cons c cs ih => unfold before fromFirst; split <;> simp [ih]

theorem fromFirst_head (f : Char7 → Bool) (t : Str) (c : Char7) (r : Str) (h : fromFirst f t = c :: r) : f c = true := by
  induction t with
  | nil => cases h
  | cons d cs ih =>
    unfold fromFirst at h
    split at h
    · cases h; assumption
    · exact ih h

theorem dropWs_split (t : Str) : ∃ w, (∀ c ∈ w, isWs c = true) ∧ t = w ++ dropWs t := by
  induction t with
  | nil => exact ⟨[], by simp, rfl⟩
  | cons c cs ih =>
    unfold dropWs
    split
    · next h =>
      obtain ⟨w, h1, h2⟩ := ih
      exact ⟨c :: w, by simpa [h] using h1, by rw [List.cons_append, ← h2]⟩
    · exact ⟨[], by simp, rfl⟩

theorem digitsVal_append (a b : Str) : digitsVal (a ++ b) = digitsVal a * 10 ^ b.length + digitsVal b := by
  have fold (b : Str) (m : Nat) :
      b.foldl (fun n c => n * 10 + digitVal c) m = m * 10 ^ b.length + digitsVal b := by
    induction b generalizing m with
    | nil => simp [digitsVal]
    | cons c cs ih =>
      simp only [digitsVal, List.foldl_cons, List.length_cons]
      rw [ih, ih (0 * 10 + digitVal c)]
      ring
  unfold digitsVal
  rw [List.foldl_append, fold]
  rfl

theorem numeralVal_eq (I F : Str) : numeralVal I F = (digitsVal (I ++ F) : Rat) / 10 ^ F.length := by
  rw [numeralVal, Rat.mkRat_eq_div]
  push_cast
  rfl

theorem firstHigh_eq_none (l : Bytes) (i : Nat) (h : ∀ b ∈ l, b.toNat ≤ 0x7F) : firstHigh l i = none := by
  induction l generalizing i with
  | nil => rfl
  | cons b bs ih =>
    have := h b (by simp)
    rw [firstHigh, if_neg (by omega)]
    exact ih _ fun c hc => h c (by simp [hc])

theorem firstHigh_eq_some (pre post : Bytes) (b : Byte) (i : Nat) (h : ∀ c ∈ pre, c.toNat ≤ 0x7F) (hb : 0x7F < b.toNat) :
    firstHigh (pre ++ [b] ++ post) i = some (i + pre.length) := by
  induction pre generalizing i with
  | nil => simp [firstHigh, hb]
  | cons c cs ih =>
    have := h c (by simp)
    simp only [List.cons_append, firstHigh]
    rw [if_neg (by omega), ih _ fun c hc => h c (by simp [hc])]
    simp
    omega

/-- One byte of RX. -/
theorem memRead_one (rx : Bytes) (i : Nat) (h : i < rx.length) : memRead rx i 1 = [rx[i]] := by
  rw [memRead, List.drop_eq_getElem_cons h, List.take_succ_cons, List.take_zero]

/-- A byte that is no NUL is kept. -/
theorem lt_keptLength (rx : Bytes) (i m : Nat) (him : i < m) (h : i < rx.length) (hb : rx[i] ≠ 0x00#8) :
    i < keptLength rx m := by
  induction m with
  | zero => omega
  | succ m ih =>
    unfold keptLength
    split
    · next h0 =>
      apply ih
      by_contra hm
      obtain rfl : m = i := by omega
      rw [memRead_one rx m h] at h0
      exact hb (List.cons.inj h0).1
    · omega

end Sys2Proof.Machine
end

