-- ==== Sys2Proof/Laws/Text.lean ====
section
/-! SUPPORT. The transmit buffer and the decimal numerals: what the encoders' loop builds, and what `dec`, `pad` and the rounding
give. -/

namespace Sys2Proof.Machine

/-- A write at the end of TX appends. -/
theorem memWrite_end (tx v : Bytes) : memWrite tx tx.length v = tx ++ v := by
  simp [memWrite]

/-- A write changes no byte outside the bytes written. -/
theorem memWrite_other (tx v : Bytes) (i j : Nat) (hi : i ≤ tx.length) (hj : j < i ∨ i + v.length ≤ j) :
    (memWrite tx i v)[j]? = tx[j]? := by
  have hl : (tx.take i).length = i := by simp [hi]
  unfold memWrite
  rcases hj with hj | hj
  · rw [List.append_assoc, List.getElem?_append_left (by omega), List.getElem?_take_of_lt hj]
  · rw [List.getElem?_append_right (by simp; omega)]
    simp only [List.length_append, hl, List.getElem?_drop]
    congr 1
    omega

/-- The bytes written read back. -/
theorem memRead_memWrite (tx v : Bytes) (i : Nat) (hi : i ≤ tx.length) : memRead (memWrite tx i v) i v.length = v := by
  have hl : (tx.take i).length = i := by simp [hi]
  simp [memRead, memWrite, List.append_assoc, hl]

theorem writeText_append (s : Str) (tx : Bytes) : writeText s tx.length tx = tx ++ s.map (fun c => c.zeroExtend 8) := by
  induction s generalizing tx with
  | nil => simp [writeText]
  | cons c cs ih =>
    have h := ih (tx ++ [c.zeroExtend 8])
    simp only [List.length_append, List.length_singleton] at h
    simp [writeText, memWrite_end, h]

/-- Character `i` of a command is byte `i` of TX (R43). -/
theorem txOf_eq_map (s : Str) : txOf s = s.map (fun c => c.zeroExtend 8) :=
  writeText_append s []

@[simp] theorem txOf_length (s : Str) : (txOf s).length = s.length := by
  simp [txOf_eq_map]

theorem dec_of_lt_ten (n : Nat) (h : n < 10) : dec n = [digitChar n] := by
  simp [dec, decFrom, h]

theorem dec_of_lt_hundred (n : Nat) (h : 10 ≤ n) (h' : n < 100) : dec n = [digitChar (n / 10), digitChar (n % 10)] := by
  obtain ⟨m, rfl⟩ : ∃ m, n = m + 1 := ⟨n - 1, by omega⟩
  have h1 : ¬ (m + 1 < 10) := by omega
  have h2 : (m + 1) / 10 < 10 := by omega
  simp [dec, decFrom, h1, h2]

@[simp] theorem pad_length (n p : Nat) : (pad n p).length = p := by
  induction p generalizing n with
  | zero => rfl
  | succ p ih => simp [pad, ih]

theorem digitChar_toNat (n : Nat) (h : n < 10) : (digitChar n).toNat = 0x30 + n := by
  simp [digitChar]
  omega

theorem isDigit_digitChar (n : Nat) (h : n < 10) : isDigit (digitChar n) = true := by
  simp [isDigit, digitChar_toNat n h]
  omega

theorem digitVal_digitChar (n : Nat) (h : n < 10) : digitVal (digitChar n) = n := by
  simp [digitVal, digitChar_toNat n h]

/-- Nearest: within half of the divisor on either side, and an exact half is even. -/
theorem divNearestEven_spec (a b : Nat) (hb : 0 < b) :
    2 * a ≤ 2 * b * divNearestEven a b + b ∧ 2 * b * divNearestEven a b ≤ 2 * a + b ∧
    ((2 * a = 2 * b * divNearestEven a b + b ∨ 2 * b * divNearestEven a b = 2 * a + b) → divNearestEven a b % 2 = 0) := by
  have hm := Nat.div_add_mod a b
  have hlt := Nat.mod_lt a hb
  unfold divNearestEven
  have e : 2 * b * (a / b + 1) = 2 * (b * (a / b)) + 2 * b := by ring
  have e' : 2 * b * (a / b) = 2 * (b * (a / b)) := by ring
  split
  · rw [e']; omega
  · split
    · rw [e]; omega
    · split
      · rw [e']; omega
      · rw [e]; omega

theorem scale10_eq (x : Rat) (p : Nat) : scale10 x p = x * 10 ^ p := by
  rw [scale10, Rat.mkRat_eq_div]
  push_cast
  conv_rhs => rw [← Rat.num_div_den x]
  ring

end Sys2Proof.Machine
end

