-- ==== Sys2Proof/Laws/Encoder.lean ====
section
/-! SUPPORT. What the encoders' shared operations can give, each said once: the channel check, the fixed-decimal text, the set
directive. -/

namespace Sys2Proof.Machine

theorem legalChannel_iff (count : BitVec 2) (ch : Nat) : legalChannel count ch = true ↔ 1 ≤ ch ∧ ch ≤ count.toNat := by
  simp [legalChannel]

theorem checkChannel_legal (count : BitVec 2) (ch : Nat) (r : Response) (h : 1 ≤ ch ∧ ch ≤ count.toNat) :
    checkChannel count ch r = r := by
  rw [checkChannel, if_pos ((legalChannel_iff count ch).2 h)]

theorem checkChannel_illegal (count : BitVec 2) (ch : Nat) (r : Response) (h : ¬ (1 ≤ ch ∧ ch ≤ count.toNat)) :
    checkChannel count ch r = .refused .channel := by
  rw [checkChannel, if_neg (fun hl => h ((legalChannel_iff count ch).1 hl))]

/-- An `Ok` outcome behind the channel check comes from a legal channel. -/
theorem checkChannel_ok (count : BitVec 2) (ch : Nat) (r : Response) (v : Result) (h : checkChannel count ch r = .ok v) :
    (1 ≤ ch ∧ ch ≤ count.toNat) ∧ r = .ok v := by
  by_cases hl : 1 ≤ ch ∧ ch ≤ count.toNat
  · exact ⟨hl, checkChannel_legal count ch r hl ▸ h⟩
  · rw [checkChannel_illegal count ch r hl] at h
    cases h

theorem fixed_negative (x : Rat) (p max : Nat) (hx : x < 0) : fixed x p max = .error .range := by
  rw [fixed, if_pos (Rat.num_neg.2 hx)]

theorem fixed_above (x : Rat) (p max : Nat) (hx : 0 ≤ x) (h : max < rne (scale10 x p)) : fixed x p max = .error .range := by
  rw [fixed, if_neg (not_lt.2 (Rat.num_nonneg.2 hx)), if_pos h]

theorem fixed_admitted (x : Rat) (p max : Nat) (hx : 0 ≤ x) (h : rne (scale10 x p) ≤ max) :
    fixed x p max = .ok (decimalText (rne (scale10 x p)) p) := by
  rw [fixed, if_neg (not_lt.2 (Rat.num_nonneg.2 hx)), if_neg (not_lt.2 h)]

/-- All that a set directive can give. -/
theorem encodeDirective_cases (verb : Str) (ch : Nat) (x : Rat) (p max : Nat) :
    (0 ≤ x ∧ rne (scale10 x p) ≤ max ∧ encodeDirective verb ch x p max =
      .ok (.bytes (txOf (verb ++ dec ch ++ [chColon] ++ decimalText (rne (scale10 x p)) p)))) ∨
    ((x < 0 ∨ max < rne (scale10 x p)) ∧ encodeDirective verb ch x p max = .refused .range) := by
  unfold encodeDirective
  rcases lt_or_ge x 0 with hx | hx
  · exact .inr ⟨.inl hx, by rw [fixed_negative x p max hx]⟩
  · rcases lt_or_ge max (rne (scale10 x p)) with h | h
    · exact .inr ⟨.inr h, by rw [fixed_above x p max hx h]⟩
    · exact .inl ⟨hx, h, by rw [fixed_admitted x p max hx h]⟩

end Sys2Proof.Machine
end

