-- ==== Sys2Proof/Laws/State.lean ====
section
/-! SUPPORT. One lemma per field of each state update, and the inversions of the shared operations that change the state. -/

namespace Sys2Proof.Machine

@[simp] theorem respond_channelCount (s : State) (r : Response) : (s.respond r).channelCount = s.channelCount := rfl
@[simp] theorem respond_configured (s : State) (r : Response) : (s.respond r).configured = s.configured := rfl
@[simp] theorem respond_pending (s : State) (r : Response) : (s.respond r).pending = s.pending := rfl
@[simp] theorem respond_rsp (s : State) (r : Response) : (s.respond r).rsp = some r := rfl
@[simp] theorem respond_runRefused (s : State) (r : Response) :
    (s.respond r).runRefused = (s.runRefused || r.isRefused) := rfl

@[simp] theorem afterReset_channelCount (n : BitVec 2) : (State.afterReset n).channelCount = n := rfl
@[simp] theorem afterReset_configured (n : BitVec 2) : (State.afterReset n).configured = true := rfl
@[simp] theorem afterReset_pending (n : BitVec 2) : (State.afterReset n).pending = [] := rfl
@[simp] theorem afterReset_rsp (n : BitVec 2) : (State.afterReset n).rsp = none := rfl
@[simp] theorem afterReset_runRefused (n : BitVec 2) : (State.afterReset n).runRefused = false := rfl

@[simp] theorem powerOn_configured : State.powerOn.configured = false := rfl
@[simp] theorem powerOn_pending : State.powerOn.pending = [] := rfl
@[simp] theorem powerOn_rsp : State.powerOn.rsp = none := rfl
@[simp] theorem powerOn_runRefused : State.powerOn.runRefused = false := rfl

@[simp] theorem isRefused_ok (v : Result) : (Response.ok v).isRefused = false := rfl
@[simp] theorem isRefused_err (e : ErrKind) : (Response.err e).isRefused = false := rfl
@[simp] theorem isRefused_refused (r : RefusalReason) : (Response.refused r).isRefused = true := rfl

/-- An `Ok` or `Err` outcome changes RSP and nothing else. -/
theorem respond_of_not_refused (s : State) (r : Response) (h : r.isRefused = false) :
    s.respond r = { s with rsp := some r } := by
  simp [State.respond, h]

/-- A refusal changes RSP and the mark of the run, and nothing else. -/
theorem respond_refused (s : State) (r : RefusalReason) :
    s.respond (.refused r) = { s with rsp := some (.refused r), runRefused := true } := by
  simp [State.respond]

/-- A configured block gives the outcome itself. -/
theorem answer_configured (s : State) (r : Response) (h : s.configured = true) : answer s r = .next (s.respond r) := by
  simp [answer, h]

/-- An unconfigured block gives `Refused(CONFIG)`, whatever the outcome would have been. -/
theorem answer_unconfigured (s : State) (r : Response) (h : s.configured = false) :
    answer s r = .next (s.respond (.refused .config)) := by
  simp [answer, h]

/-- All that an answer can do: it is always a next state, and one of two. -/
theorem answer_cases (s t : State) (r : Response) (h : answer s r = .next t) :
    (s.configured = true ∧ t = s.respond r) ∨ (s.configured = false ∧ t = s.respond (.refused .config)) := by
  cases hc : s.configured
  · rw [answer_unconfigured s r hc] at h
    cases h
    exact .inr ⟨rfl, rfl⟩
  · rw [answer_configured s r hc] at h
    cases h
    exact .inl ⟨rfl, rfl⟩

/-- All that the reset input can do. -/
theorem takeReset_cases (n : Nat) (s t : State) (h : takeReset n s = .next t) :
    ((n = 1 ∨ n = 2) ∧ t = { s with channelCount := BitVec.ofNat 2 n, configured := true, rsp := none }) ∨
    (¬ (n = 1 ∨ n = 2) ∧ t = s.respond (.refused .config)) := by
  unfold takeReset at h
  split at h
  · next hn => cases h; exact .inl ⟨by simpa [Config.legalChannelCounts] using hn, rfl⟩
  · next hn => cases h; exact .inr ⟨by simpa [Config.legalChannelCounts] using hn, rfl⟩

end Sys2Proof.Machine
end

