-- ==== Sys2Proof/Laws/Exec.lean ====
section
/-! SUPPORT. What every instruction does: it answers with an outcome that is a function of its operands and CFG.CHANNEL_COUNT
(spec/10_state.md rule R21). Later proofs cite `exec_eq_answer` and the lemmas of `answer`, and unfold no meaning. -/

namespace Sys2Proof.Machine

/-- The outcome an instruction has on a configured block. -/
def outcomeOf (count : BitVec 2) : Instr → Response
  | .encIdn => respEncIdn
  | .encVset ch val => respEncVset count ch val
  | .encIset ch val => respEncIset count ch val
  | .encVsetQ ch => respEncVsetQ count ch
  | .encIsetQ ch => respEncIsetQ count ch
  | .encVoutQ ch => respEncVoutQ count ch
  | .encIoutQ ch => respEncIoutQ count ch
  | .encOut flag => respEncOut flag
  | .encStatusQ => respEncStatusQ
  | .decText buf => respDecText buf
  | .decFloat t k => respDecFloat t k
  | .decStatusRaw buf => respDecStatusRaw buf
  | .decStatusFields sb => respDecStatusFields count sb
  | .decodeStatus sb reads => respDecodeStatus count sb reads

theorem exec_eq_answer (i : Instr) (s : State) : exec i s = answer s (outcomeOf s.channelCount i) := by
  cases i <;> rfl

/-- A step with no input presented changes nothing. -/
theorem step_idle (s : State) (h : s.pending = []) : step s = .next s := by
  simp [step, h]

/-- A step takes the first input. -/
theorem step_input (s : State) (i : Input) (rest : List Input) (h : s.pending = i :: rest) :
    step s = serveInput i { s with pending := rest } := by
  simp [step, h]

/-- A request is decoded and run, or refused by name. -/
theorem serveRequest_eq_answer (r : Request) (s : State) :
    serveRequest r s = answer s (match decode r with
      | .ok i => outcomeOf s.channelCount i
      | .error e => .refused (rejectReason e)) := by
  unfold serveRequest
  cases decode r with
  | ok i => simp [exec_eq_answer]
  | error e => simp

end Sys2Proof.Machine
end

