-- ==== Sys2Proof/Laws/HostSide.lean ====
section
/-! SUPPORT. What the host's functions can give: one lemma for each, which says everything it can do. -/

namespace Sys2Proof.Machine

/-- A numeric pipeline's `Ok` is a number. -/
theorem replyNumber_ok (k : Option Nat) (buf : Bytes) (u : Result) (h : replyNumber k buf = .ok u) : ∃ x, u = .rat x := by
  unfold replyNumber at h
  split at h
  · unfold respDecFloat at h
    split at h
    · cases h; exact ⟨_, rfl⟩
    · split at h <;> cases h
  · next hne =>
    unfold respDecText at h hne
    split at h
    · cases h
    · next hf => exact absurd (by simp [hf]) (hne ((keptBytes buf).map fun b => b.truncate 7))

/-- A read of a status read that is `Ok` is a number. -/
theorem statusRead_ok (queryReads : List (List Bytes)) (n : Nat) (u : Result) (h : statusRead queryReads n = .ok u) :
    ∃ x, u = .rat x := by
  have hk : (readTemplate (n / 4 + 1) (n % 4)).2 = .voltage ∨ (readTemplate (n / 4 + 1) (n % 4)).2 = .current := by
    unfold readTemplate
    split <;> simp
  unfold statusRead readAnswer at h
  split at h
  · rcases hk with hk | hk <;> rw [hk] at h <;> exact replyNumber_ok _ _ u h
  · cases h

/-- The queries the facade asks are those of R131, each with its pipeline. -/
theorem queryNumber_eq_statusRead (count : BitVec 2) (queryReads : List (List Bytes)) (n : Nat) (q : Instr)
    (hc : count = 1#2 ∨ count = 2#2) (hq : (statusQueries count)[n]? = some q) :
    queryNumber ((replyKind q).getD .voltage) (queryResponse count q) (queryReads.getD n []) = statusRead queryReads n := by
  have hn : n < 8 := by
    have := (List.getElem?_eq_some_iff.1 hq).1
    rcases hc with rfl | rfl <;> simp [statusQueries, queriesFrom, channelQueries] at this <;> omega
  rcases hc with rfl | rfl <;> interval_cases n <;> cases hq <;> rfl

/-- `collectReads` gives all the values, or what the first query gave that gave none. -/
theorem collectReads_cases (count : BitVec 2) : ∀ (qs : List Instr) (attempts : List (List Bytes)) (f : Nat → Response),
    (∀ n q, qs[n]? = some q →
      queryNumber ((replyKind q).getD .voltage) (queryResponse count q) (attempts.getD n []) = f n) →
    (∃ vs, collectReads count qs attempts = .ok vs ∧ vs.length = qs.length ∧ ∀ n v, vs[n]? = some v → f n = .ok (.rat v)) ∨
    (∃ n, n < qs.length ∧ collectReads count qs attempts = .error (f n) ∧ (∀ v, f n ≠ .ok (.rat v)) ∧
      ∀ m < n, ∃ v, f m = .ok (.rat v))
  | [], _, _, _ => .inl ⟨[], rfl, rfl, by simp⟩
  | q :: qs, attempts, f, hf => by
    have h0 := hf 0 q rfl
    rw [show attempts.getD 0 [] = attempts.headD [] by cases attempts <;> rfl] at h0
    have ih := collectReads_cases count qs attempts.tail (fun n => f (n + 1)) (fun n q' h => by
      rw [← hf (n + 1) q' h]
      cases attempts <;> rfl)
    simp only [collectReads, h0]
    by_cases hv : ∃ v, f 0 = .ok (.rat v)
    · obtain ⟨v, hv⟩ := hv
      simp only [hv]
      rcases ih with ⟨vs, h, hl, hi⟩ | ⟨n, hn, h, he, hi⟩
      · refine .inl ⟨v :: vs, by simp only [h], by simp [hl], ?_⟩
        rintro (_ | n) w hw
        · cases hw; exact hv
        · exact hi n w hw
      · refine .inr ⟨n + 1, by simp [hn], by simp only [h], he, ?_⟩
        rintro (_ | m) hm
        · exact ⟨v, hv⟩
        · exact hi m (by omega)
    · refine .inr ⟨0, by simp, ?_, fun v h => hv ⟨v, h⟩, by simp⟩
      split
      · next v h => exact absurd ⟨v, h⟩ hv
      · rfl

/-- DEC_STATUS_RAW in the loop: another length than one is passed over. -/
theorem firstStatusByte_skip (n : Nat) (buf : Bytes) (rest : List Bytes) (h : buf.length ≠ 1) :
    firstStatusByte (n + 1) (buf :: rest) = firstStatusByte n rest := by
  rcases buf with _ | ⟨_, _ | ⟨_, _⟩⟩
  · rfl
  · exact absurd rfl h
  · rfl

end Sys2Proof.Machine
end

