-- ==== Sys2Proof/Laws/PerInstr.lean ====
section
/-! SUPPORT. The family of statements made per instruction: the request of every instruction is well formed. -/

namespace Sys2Proof.Laws.EncodeWellFormed

/-- The encoder gives a request with the slots of R56 and values of their types (R24). -/
def Statement (i : Instr) : Prop := (encode i).wellFormed = true

@[simp] theorem bitBelow (b : Bit) : isNatNumBelow 2 (b.toNat : Rat) = true :=
  (isNatNumBelow_iff 1 _).2 ⟨b, numBits_toNat b⟩

@[simp] theorem byteBelow (b : Byte) : isNatNumBelow 256 (b.toNat : Rat) = true :=
  (isNatNumBelow_iff 8 _).2 ⟨b, numBits_toNat b⟩

@[simp] theorem charBelow (c : Char7) : isNatNumBelow 128 (c.toNat : Rat) = true :=
  (isNatNumBelow_iff 7 _).2 ⟨c, numBits_toNat c⟩

theorem byOperands (i : Instr) : Statement i := by
  cases i with
  | decFloat s k =>
    cases k <;>
      simp [Statement, encode, Request.wellFormed, slotsOf, SlotName.all, Slots.slotOk, Slots.get, natOperand, bitsOperand,
        SlotName.admits]
  | _ =>
    simp [Statement, encode, Request.wellFormed, slotsOf, SlotName.all, Slots.slotOk, Slots.get, natOperand, bitsOperand,
      SlotName.admits]

theorem encIdn : Statement .encIdn := byOperands _

theorem encVset (ch : Nat) (val : Rat) : Statement (.encVset ch val) := byOperands _

theorem encIset (ch : Nat) (val : Rat) : Statement (.encIset ch val) := byOperands _

theorem encVsetQ (ch : Nat) : Statement (.encVsetQ ch) := byOperands _

theorem encIsetQ (ch : Nat) : Statement (.encIsetQ ch) := byOperands _

theorem encVoutQ (ch : Nat) : Statement (.encVoutQ ch) := byOperands _

theorem encIoutQ (ch : Nat) : Statement (.encIoutQ ch) := byOperands _

theorem encOut (flag : Bit) : Statement (.encOut flag) := byOperands _

theorem encStatusQ : Statement .encStatusQ := byOperands _

theorem decText (buf : Bytes) : Statement (.decText buf) := byOperands _

theorem decFloat (s : Str) (k : Option Nat) : Statement (.decFloat s k) := byOperands _

theorem decStatusRaw (buf : Bytes) : Statement (.decStatusRaw buf) := byOperands _

theorem decStatusFields (sb : Byte) : Statement (.decStatusFields sb) := byOperands _

theorem decodeStatus (sb : Byte) (reads : List Rat) : Statement (.decodeStatus sb reads) := byOperands _

end Sys2Proof.Laws.EncodeWellFormed
end

