-- ==== Sys2Proof/Machine/Assembler.lean ====
section
/-! DEFINITION. The assembly syntax of spec/30_encoding.md rule R73: one line to one request, operands as raw values, so that a line
can also state a request the block refuses. Blanks may stand around a comma and around a line's ends (log 9). No step calls this
file. -/

namespace Sys2Proof.Machine.Asm

/-- The text without the blanks it begins with. -/
def dropBlanks : List Char → List Char
  | [] => []
  | c :: cs => if c = ' ' then dropBlanks cs else c :: cs

/-- The text without the blanks at both ends. -/
def trim (t : List Char) : List Char := (dropBlanks (dropBlanks t).reverse).reverse

/-- The text before the first `sep`, and what follows it if there is one. -/
def cut (sep : Char) : List Char → List Char × Option (List Char)
  | [] => ([], none)
  | c :: cs => if c = sep then ([], some cs) else ((c :: (cut sep cs).1), (cut sep cs).2)

/-- The items of a list, separated by `sep`. -/
def items (sep : Char) : List Char → List (List Char)
  | [] => [[]]
  | c :: cs =>
    if c = sep then [] :: items sep cs
    else match items sep cs with
      | [] => [[c]]
      | i :: is => (c :: i) :: is

/-- The text after a fixed prefix. -/
def afterPrefix : List Char → List Char → Option (List Char)
  | [], t => some t
  | _ :: _, [] => none
  | p :: ps, c :: cs => if p = c then afterPrefix ps cs else none

/-- Every item read by `f`. -/
def readAll {α : Type} (f : List Char → Option α) : List (List Char) → Option (List α)
  | [] => some []
  | t :: ts =>
    match f t, readAll f ts with
    | some a, some as => some (a :: as)
    | _, _ => none

/-- The text as 7-bit characters. -/
def toStr : List Char → Option Str
  | [] => some []
  | c :: cs =>
    match toStr cs with
    | some s => if c.toNat < 128 then some (BitVec.ofNat 7 c.toNat :: s) else none
    | none => none

/-- `<decimal>` of R73: "an exact rational written in decimal", with a `-` for a negative one. -/
def decimal (t : List Char) : Option Rat :=
  let abs (u : List Char) : Option Rat := (toStr u).bind parseNumeral
  match trim t with
  | '-' :: u => (abs u).map fun v => -v
  | u => abs u

/-- `<n>`. -/
def natural (t : List Char) : Option Rat :=
  (toStr (trim t)).bind fun s => if s ≠ [] ∧ s.all isDigit = true then some (digitsVal s : Rat) else none

/-- One hexadecimal digit. -/
def hexDigit (c : Char) : Option Nat :=
  let n := c.toNat
  if 0x30 ≤ n ∧ n ≤ 0x39 then some (n - 0x30)
  else if 0x41 ≤ n ∧ n ≤ 0x46 then some (n - 0x37)
  else if 0x61 ≤ n ∧ n ≤ 0x66 then some (n - 0x57)
  else none

/-- A hexadecimal number of one digit or more. -/
def hexNumber (t : List Char) : Option Nat :=
  match readAll (fun d => match d with | [c] => hexDigit c | _ => none) (t.map fun c => [c]) with
  | some [] => none
  | some ds => some (ds.foldl (fun n d => n * 16 + d) 0)
  | none => none

/-- `<byte>`, written as `0x..`. -/
def byteLiteral (t : List Char) : Option Rat :=
  ((afterPrefix "0x".toList (trim t)).bind hexNumber).map fun n => (n : Rat)

/-- The inside of `[..]`. -/
def bracketed (t : List Char) : Option (List Char) :=
  match trim t with
  | '[' :: u =>
    match u.reverse with
    | ']' :: v => some (trim v.reverse)
    | _ => none
  | _ => none

/-- `[<hex bytes>]`. -/
def hexBytes (t : List Char) : Option (List Rat) :=
  (bracketed t).bind fun u =>
    if u = [] then some [] else readAll (fun b => (hexNumber b).map fun n => (n : Rat)) (items ' ' u)

/-- `[<r1>, <r2>, ...]`. -/
def rationals (t : List Char) : Option (List Rat) :=
  (bracketed t).bind fun u => if u = [] then some [] else readAll decimal (items ',' u)

/-- `ch=<n>`. -/
def channel (t : List Char) : Option Operand :=
  ((afterPrefix "ch=".toList (trim t)).bind natural).map .num

/-- `ch=<n>, <key>=<decimal>`, where the value may be missing. -/
def directive (opsel : BitVec 4) (key t : List Char) : Option Request :=
  match cut ',' t with
  | (c, none) => (channel c).map fun o => { opsel := opsel, slots := { ch := some o } }
  | (c, some v) =>
    (channel c).bind fun o =>
      ((afterPrefix key (trim v)).bind decimal).map fun q =>
        { opsel := opsel, slots := { ch := some o, val := some (.num q) } }

/-- `"<text>"`, then nothing or `, k=<n>`. -/
def floatOperands (t : List Char) : Option Slots :=
  match trim t with
  | '"' :: u =>
    match cut '"' u with
    | (_, none) => none
    | (txt, some rest) =>
      let s := some (Operand.seq (txt.map fun c => (c.toNat : Rat)))
      match trim rest with
      | [] => some { s := s }
      | ',' :: v => ((afterPrefix "k=".toList (trim v)).bind natural).map fun q => { s := s, k := some (.num q) }
      | _ => none
  | _ => none

/-- The operands of a line, by its mnemonic. -/
def operands (mnemonic t : List Char) : Option Request :=
  if mnemonic = "enc.idn".toList then (if t = [] then some { opsel := 0x0#4 } else none)
  else if mnemonic = "enc.vset".toList then directive 0x1#4 "v=".toList t
  else if mnemonic = "enc.iset".toList then directive 0x2#4 "i=".toList t
  else if mnemonic = "enc.vset?".toList then (channel t).map fun o => { opsel := 0x3#4, slots := { ch := some o } }
  else if mnemonic = "enc.iset?".toList then (channel t).map fun o => { opsel := 0x4#4, slots := { ch := some o } }
  else if mnemonic = "enc.vout?".toList then (channel t).map fun o => { opsel := 0x5#4, slots := { ch := some o } }
  else if mnemonic = "enc.iout?".toList then (channel t).map fun o => { opsel := 0x6#4, slots := { ch := some o } }
  else if mnemonic = "enc.out".toList then (natural t).map fun q => { opsel := 0x7#4, slots := { flag := some (.num q) } }
  else if mnemonic = "enc.status?".toList then (if t = [] then some { opsel := 0x8#4 } else none)
  else if mnemonic = "dec.text".toList then (hexBytes t).map fun b => { opsel := 0x9#4, slots := { buf := some (.seq b) } }
  else if mnemonic = "dec.float".toList then (floatOperands t).map fun u => { opsel := 0xA#4, slots := u }
  else if mnemonic = "dec.sraw".toList then (hexBytes t).map fun b => { opsel := 0xB#4, slots := { buf := some (.seq b) } }
  else if mnemonic = "dec.sfields".toList then (byteLiteral t).map fun q => { opsel := 0xC#4, slots := { sb := some (.num q) } }
  else if mnemonic = "dec.status".toList then
    match cut ',' t with
    | (_, none) => none
    | (b, some r) =>
      (byteLiteral b).bind fun q =>
        (rationals r).map fun qs => { opsel := 0xD#4, slots := { sb := some (.num q), reads := some (.seq qs) } }
  else none

/-- A line of R73, or a request word `OPSEL=0x<h>`, which gives the selector alone. -/
def assemble (line : List Char) : Option Request :=
  let l := trim line
  match afterPrefix "OPSEL=0x".toList l with
  | some h =>
    match hexNumber h with
    | some n => if n < 16 then some { opsel := BitVec.ofNat 4 n } else none
    | none => none
  | none =>
    match cut ' ' l with
    | (m, none) => operands m []
    | (m, some t) => operands m (trim t)

end Sys2Proof.Machine.Asm
end

