-- ==== Sys2Proof/Tests/Slice0.lean ====
section
/-! SUPPORT. Tests. Expected values are those of spec/95_test_vectors.md and of the worked examples of the operation rules, or are
worked out by hand from the tables of spec/30_encoding.md; none is the model's own answer. The witnesses at the end show that the
hypotheses of the obligations can be met. -/

namespace Sys2Proof.Tests

open Sys2Proof.Machine

/-- A block after RESET(n). -/
def blk (n : BitVec 2) : State := State.afterReset n

/-- What stands on RSP after an instruction on a block with channel count `n`. -/
def rspOf (n : BitVec 2) (i : Instr) : Option Response :=
  match exec i (blk n) with
  | .next t => t.rsp
  | .fault _ => none
  | .refused _ => none

/-- What stands on RSP after one step that is presented the request. -/
def rspOfRequest (s : State) (r : Request) : Option Response :=
  match step { s with pending := [.request r] } with
  | .next t => t.rsp
  | .fault _ => none
  | .refused _ => none

/-! ## Decoding: a request for each constructor, selector and slots from R55 and R56 -/

theorem test_decode_encIdn : decode { opsel := 0b0000#4 } = .ok .encIdn := by decide
theorem test_decode_encVset :
    decode { opsel := 0b0001#4, slots := { ch := some (.num 1), val := some (.num (mkRat 25 2)) } } =
      .ok (.encVset 1 (mkRat 25 2)) := by decide
theorem test_decode_encIset :
    decode { opsel := 0b0010#4, slots := { ch := some (.num 2), val := some (.num (mkRat 5 4)) } } =
      .ok (.encIset 2 (mkRat 5 4)) := by decide
theorem test_decode_encVsetQ : decode { opsel := 0b0011#4, slots := { ch := some (.num 1) } } = .ok (.encVsetQ 1) := by decide
theorem test_decode_encIsetQ : decode { opsel := 0b0100#4, slots := { ch := some (.num 2) } } = .ok (.encIsetQ 2) := by decide
theorem test_decode_encVoutQ : decode { opsel := 0b0101#4, slots := { ch := some (.num 1) } } = .ok (.encVoutQ 1) := by decide
theorem test_decode_encIoutQ : decode { opsel := 0b0110#4, slots := { ch := some (.num 3) } } = .ok (.encIoutQ 3) := by decide
theorem test_decode_encOut : decode { opsel := 0b0111#4, slots := { flag := some (.num 1) } } = .ok (.encOut 1#1) := by decide
theorem test_decode_encStatusQ : decode { opsel := 0b1000#4 } = .ok .encStatusQ := by decide
theorem test_decode_decText :
    decode { opsel := 0b1001#4, slots := { buf := some (.seq [65, 0, 255]) } } = .ok (.decText [0x41#8, 0x00#8, 0xFF#8]) := by
  decide
theorem test_decode_decFloat :
    decode { opsel := 0b1010#4, slots := { s := some (.seq [49, 46]), k := some (.num 5) } } =
      .ok (.decFloat [0x31#7, 0x2E#7] (some 5)) := by decide
theorem test_decode_decFloat_no_k :
    decode { opsel := 0b1010#4, slots := { s := some (.seq [49]) } } = .ok (.decFloat [0x31#7] none) := by decide
theorem test_decode_decStatusRaw :
    decode { opsel := 0b1011#4, slots := { buf := some (.seq []) } } = .ok (.decStatusRaw []) := by decide
theorem test_decode_decStatusFields :
    decode { opsel := 0b1100#4, slots := { sb := some (.num 65) } } = .ok (.decStatusFields 0x41#8) := by decide
theorem test_decode_decodeStatus :
    decode { opsel := 0b1101#4, slots := { sb := some (.num 65), reads := some (.seq [1, 2, 3, 4]) } } =
      .ok (.decodeStatus 0x41#8 [1, 2, 3, 4]) := by decide
theorem test_decode_reserved :
    decode { opsel := 0b1110#4, slots := { ch := some (.num 1) } } = .error .reservedOp ∧
    decode { opsel := 0b1111#4 } = .error .reservedOp := by decide
theorem test_decodeTableWord_last : decodeTableWord 8 0x0D = some (.decodeStatus 0x00#8 []) := by decide
theorem test_decodeTableWord_reserved : decodeTableWord 8 0x0E = none := by decide

/-! ## Well-formedness: one ill-formed request for each check -/

theorem test_wf_accepts_vset :
    Request.wellFormed { opsel := 0x1#4, slots := { ch := some (.num 1), val := some (.num 5) } } = true := by decide
theorem test_wf_refuses_reserved : Request.wellFormed { opsel := 0xE#4 } = false := by decide
theorem test_wf_refuses_missing_val : Request.wellFormed { opsel := 0x1#4, slots := { ch := some (.num 1) } } = false := by decide
theorem test_wf_refuses_extra_ch :
    Request.wellFormed { opsel := 0x7#4, slots := { ch := some (.num 1), flag := some (.num 1) } } = false := by decide
theorem test_wf_refuses_negative_ch : Request.wellFormed { opsel := 0x3#4, slots := { ch := some (.num (-1)) } } = false := by decide
theorem test_wf_refuses_fraction_ch :
    Request.wellFormed { opsel := 0x3#4, slots := { ch := some (.num (mkRat 1 2)) } } = false := by decide
theorem test_wf_refuses_sequence_ch : Request.wellFormed { opsel := 0x3#4, slots := { ch := some (.seq [1]) } } = false := by decide
theorem test_wf_refuses_flag_two : Request.wellFormed { opsel := 0x7#4, slots := { flag := some (.num 2) } } = false := by decide
theorem test_wf_refuses_buf_256 : Request.wellFormed { opsel := 0x9#4, slots := { buf := some (.seq [256]) } } = false := by decide
theorem test_wf_refuses_char_128 : Request.wellFormed { opsel := 0xA#4, slots := { s := some (.seq [128]) } } = false := by decide
theorem test_wf_refuses_negative_k :
    Request.wellFormed { opsel := 0xA#4, slots := { s := some (.seq [49]), k := some (.num (-1)) } } = false := by decide
theorem test_wf_refuses_sb_256 : Request.wellFormed { opsel := 0xC#4, slots := { sb := some (.num 256) } } = false := by decide
theorem test_wf_refuses_single_read :
    Request.wellFormed { opsel := 0xD#4, slots := { sb := some (.num 0), reads := some (.num 1) } } = false := by decide

/-! ## The frame encoder, spec/95_test_vectors.md section 2.1 -/

theorem test_encIdn : rspOf 1#2 .encIdn = some (.ok (.bytes [0x2A, 0x49, 0x44, 0x4E, 0x3F])) := by decide
theorem test_encVset_tie_to_even :
    rspOf 1#2 (.encVset 1 (mkRat 12345 1000)) =
      some (.ok (.bytes [0x56, 0x53, 0x45, 0x54, 0x31, 0x3A, 0x31, 0x32, 0x2E, 0x33, 0x34])) := by decide
theorem test_encVset_range_after_rounding :
    rspOf 1#2 (.encVset 1 (mkRat 99995 1000)) = some (.refused .range) ∧
    rspOf 1#2 (.encVset 1 (mkRat 99994 1000)) =
      some (.ok (.bytes [0x56, 0x53, 0x45, 0x54, 0x31, 0x3A, 0x39, 0x39, 0x2E, 0x39, 0x39])) ∧
    rspOf 1#2 (.encVset 2 200) = some (.refused .channel) := by decide
theorem test_encIset_three_decimals :
    rspOf 1#2 (.encIset 1 (mkRat 3 2)) =
      some (.ok (.bytes [0x49, 0x53, 0x45, 0x54, 0x31, 0x3A, 0x31, 0x2E, 0x35, 0x30, 0x30])) := by decide
theorem test_encIset_ties_and_range :
    rspOf 1#2 (.encIset 1 (mkRat 15 10000)) =
      some (.ok (.bytes [0x49, 0x53, 0x45, 0x54, 0x31, 0x3A, 0x30, 0x2E, 0x30, 0x30, 0x32])) ∧
    rspOf 1#2 (.encIset 1 10) = some (.refused .range) ∧ rspOf 1#2 (.encIset 1 (mkRat (-1) 1000)) = some (.refused .range) := by
  decide
theorem test_encVsetQ : rspOf 2#2 (.encVsetQ 2) = some (.ok (.bytes [0x56, 0x53, 0x45, 0x54, 0x32, 0x3F])) := by decide
theorem test_encIsetQ :
    rspOf 2#2 (.encIsetQ 2) = some (.ok (.bytes [0x49, 0x53, 0x45, 0x54, 0x32, 0x3F])) ∧
    rspOf 1#2 (.encIsetQ 2) = some (.refused .channel) := by decide
theorem test_encVoutQ :
    rspOf 1#2 (.encVoutQ 1) = some (.ok (.bytes [0x56, 0x4F, 0x55, 0x54, 0x31, 0x3F])) ∧
    rspOf 1#2 (.encVoutQ 0) = some (.refused .channel) := by decide
theorem test_encIoutQ :
    rspOf 1#2 (.encIoutQ 1) = some (.ok (.bytes [0x49, 0x4F, 0x55, 0x54, 0x31, 0x3F])) ∧
    rspOf 2#2 (.encIoutQ 3) = some (.refused .channel) := by decide
theorem test_encOut :
    rspOf 1#2 (.encOut 1#1) = some (.ok (.bytes [0x4F, 0x55, 0x54, 0x31])) ∧
    rspOf 1#2 (.encOut 0#1) = some (.ok (.bytes [0x4F, 0x55, 0x54, 0x30])) := by decide
theorem test_encStatusQ :
    rspOf 1#2 .encStatusQ = some (.ok (.bytes [0x53, 0x54, 0x41, 0x54, 0x55, 0x53, 0x3F])) := by decide

/-! ## The response decoder, sections 2.2 to 2.4 -/

/-- SX3. -/
theorem test_decText_strips_trailing_nuls :
    rspOf 1#2 (.decText [0x56, 0x53, 0x45, 0x54, 0x31, 0x3A, 0x30, 0x35, 0x2E, 0x30, 0x30, 0x00, 0x00, 0x00]) =
      some (.ok (.text [0x56, 0x53, 0x45, 0x54, 0x31, 0x3A, 0x30, 0x35, 0x2E, 0x30, 0x30])) := by decide
theorem test_decText_interior_nul_and_high_byte :
    rspOf 1#2 (.decText [0x41, 0x00, 0x42, 0x00]) = some (.ok (.text [0x41, 0x00, 0x42])) ∧
    rspOf 1#2 (.decText [0x41, 0x00, 0xFF]) = some (.err (.decodeError 2)) ∧
    rspOf 1#2 (.decText [0xFF, 0x00]) = some (.err (.decodeError 0)) := by decide
/-- SX4: "01.234999" with K = some 5. -/
theorem test_decFloat_truncates_first :
    rspOf 1#2 (.decFloat [0x30, 0x31, 0x2E, 0x32, 0x33, 0x34, 0x39, 0x39, 0x39] (some 5)) = some (.ok (.rat (mkRat 123 100))) := by
  decide
/-- "5.", ".5" and "007" have values; "-1.0", "1e3", "1_0" and "12.50" CR are refused; ".", "1,5" and "abc" are errors. -/
theorem test_decFloat_grammars :
    rspOf 1#2 (.decFloat [0x35, 0x2E] none) = some (.ok (.rat 5)) ∧
    rspOf 1#2 (.decFloat [0x2E, 0x35] none) = some (.ok (.rat (mkRat 1 2))) ∧
    rspOf 1#2 (.decFloat [0x30, 0x30, 0x37] none) = some (.ok (.rat 7)) ∧
    rspOf 1#2 (.decFloat [0x2D, 0x31, 0x2E, 0x30] none) = some (.refused .numericForm) ∧
    rspOf 1#2 (.decFloat [0x31, 0x65, 0x33] none) = some (.refused .numericForm) ∧
    rspOf 1#2 (.decFloat [0x31, 0x5F, 0x30] none) = some (.refused .numericForm) ∧
    rspOf 1#2 (.decFloat [0x31, 0x32, 0x2E, 0x35, 0x30, 0x0D] none) = some (.refused .numericForm) ∧
    rspOf 1#2 (.decFloat [0x4E, 0x61, 0x4E] none) = some (.refused .numericForm) ∧
    rspOf 1#2 (.decFloat [0x2E] none) = some (.err .parseError) ∧
    rspOf 1#2 (.decFloat [0x31, 0x2C, 0x35] none) = some (.err .parseError) ∧
    rspOf 1#2 (.decFloat [0x61, 0x62, 0x63] none) = some (.err .parseError) ∧
    rspOf 1#2 (.decFloat [0x31, 0x32, 0x2E, 0x35, 0x30] (some 0)) = some (.err .parseError) := by decide
/-- The noise "4K" behind a current is cut; a high byte behind one is not; voltages are not truncated. -/
theorem test_reply_pipelines :
    decodeReply .current [0x30, 0x2E, 0x35, 0x30, 0x30, 0x34, 0x4B] = .ok (.rat (mkRat 1 2)) ∧
    decodeReply .current [0x31, 0x2E, 0x32, 0x35, 0x30, 0xC3] = .err (.decodeError 5) ∧
    decodeReply .voltage [0x31, 0x32, 0x2E, 0x34, 0x39, 0x4B] = .err .parseError ∧
    decodeReply .voltage [0x00, 0x00] = .err .parseError := by decide

/-! ## The status decoder, section 2.5 -/

theorem test_decStatusRaw :
    rspOf 1#2 (.decStatusRaw [0x00]) = some (.ok (.byte 0x00)) ∧
    rspOf 1#2 (.decStatusRaw []) = some (.err (.transient 0)) ∧
    rspOf 1#2 (.decStatusRaw [0x41, 0x00]) = some (.err (.transient 2)) := by decide
theorem test_decStatusFields_two_channels :
    rspOf 2#2 (.decStatusFields 0x56) =
      some (.ok (.fields { modes := [.cv, .cc], track := .series, beep := true, lock := false, output := true })) ∧
    rspOf 2#2 (.decStatusFields 0x08) =
      some (.ok (.fields { modes := [.cv, .cv], track := .reserved, beep := false, lock := false, output := false })) := by
  decide
/-- SX1, and bits 7 and 1 ignored. -/
theorem test_decStatusFields_one_channel :
    rspOf 1#2 (.decStatusFields 0x41) =
      some (.ok (.fields { modes := [.cc], track := .independent, beep := false, lock := false, output := true })) ∧
    rspOf 1#2 (.decStatusFields 0x82) = rspOf 1#2 (.decStatusFields 0x00) := by decide
theorem test_decodeStatus_two_channels :
    rspOf 2#2 (.decodeStatus 0x56 [30, 3, mkRat 2998 100, mkRat 1234 1000, 5, mkRat 1 2, mkRat 501 100, mkRat 1 10]) =
      some (.ok (.status
        { channels := [⟨.cv, 30, 3, mkRat 2998 100, mkRat 617 500⟩, ⟨.cc, 5, mkRat 1 2, mkRat 501 100, mkRat 1 10⟩]
          track := .series, beep := true, lock := false, output := true })) := by decide
theorem test_decodeStatus_arity :
    rspOf 2#2 (.decodeStatus 0x41 [1, 2, 3, 4]) = some (.refused .arity) ∧
    rspOf 1#2 (.decodeStatus 0x41 [1, 2, 3]) = some (.refused .arity) := by decide

/-! ## Requests and reset, sections 2.1 and 2.6 -/

theorem test_step_runs_table_word :
    step (State.reset.withFetchWord 8 0x08) =
      .next { State.reset with rsp := some (.ok (.bytes [0x53, 0x54, 0x41, 0x54, 0x55, 0x53, 0x3F])) } := rfl
theorem test_step_refusals :
    rspOfRequest (blk 1#2) { opsel := 0xE#4 } = some (.refused .reservedOp) ∧
    rspOfRequest (blk 1#2) { opsel := 0x1#4, slots := { ch := some (.num 1) } } = some (.refused .operand) ∧
    rspOfRequest State.powerOn { opsel := 0x0#4 } = some (.refused .config) ∧
    rspOfRequest State.powerOn { opsel := 0xE#4 } = some (.refused .config) := by decide
theorem test_reset_refuses_zero_and_three :
    step { blk 2#2 with pending := [.reset 0] } =
      .next { blk 2#2 with rsp := some (.refused .config), runRefused := true } ∧
    step { blk 2#2 with pending := [.reset 3] } =
      .next { blk 2#2 with rsp := some (.refused .config), runRefused := true } := ⟨rfl, rfl⟩
theorem test_host_loops :
    transact [0x2A] [[], [], [0x31]] = .ok [0x31] ∧ transact [0x2A] [[], [], [], [0x31]] = .error (.noResponse [0x2A]) ∧
    statusLoop [[], [0x41, 0x42], [0x41]] = .ok 0x41 := ⟨rfl, rfl, rfl⟩
theorem test_status_query_order :
    statusQueries 2#2 = [.encVsetQ 1, .encIsetQ 1, .encVoutQ 1, .encIoutQ 1, .encVsetQ 2, .encIsetQ 2, .encVoutQ 2, .encIoutQ 2] := by
  decide

/-! ## The assembly syntax, R73 and section 3 -/

theorem test_asm_vset :
    Asm.assemble "enc.vset ch=1, v=12.5".toList =
      some { opsel := 0x1#4, slots := { ch := some (.num 1), val := some (.num (mkRat 25 2)) } } := by decide +kernel
theorem test_asm_negative :
    Asm.assemble "enc.vset ch=1, v=-0.001".toList =
      some { opsel := 0x1#4, slots := { ch := some (.num 1), val := some (.num (mkRat (-1) 1000)) } } := by decide +kernel
theorem test_asm_text :
    Asm.assemble "dec.text [31 2E B0]".toList = some { opsel := 0x9#4, slots := { buf := some (.seq [49, 46, 176]) } } := by
  decide +kernel
theorem test_asm_float :
    Asm.assemble "dec.float \"1.5\", k=5".toList =
      some { opsel := 0xA#4, slots := { s := some (.seq [49, 46, 53]), k := some (.num 5) } } := by decide +kernel
theorem test_asm_status :
    Asm.assemble "dec.status 0x41, [1, 2, 3]".toList =
      some { opsel := 0xD#4, slots := { sb := some (.num 65), reads := some (.seq [1, 2, 3]) } } := by decide +kernel
theorem test_asm_word : Asm.assemble "OPSEL=0xE".toList = some { opsel := 0xE#4 } := by decide +kernel

/-! ## Witnesses: the hypotheses of the obligations can be met -/

theorem witness_ResetAcceptsExactlyOneAndTwo :
    ({ blk 1#2 with pending := [.reset 1] } : State).pending = .reset 1 :: [] ∧ (1 = 1 ∨ 1 = 2) ∧
    ({ blk 1#2 with pending := [.reset 2] } : State).pending = .reset 2 :: [] ∧ (2 = 1 ∨ 2 = 2) ∧
    ({ blk 1#2 with pending := [.reset 0] } : State).pending = .reset 0 :: [] ∧ ¬ (0 = 1 ∨ 0 = 2) ∧
    ({ blk 1#2 with pending := [.reset 3] } : State).pending = .reset 3 :: [] ∧ ¬ (3 = 1 ∨ 3 = 2) := by decide

theorem witness_UnconfiguredBlockRefusesEveryRequest :
    State.powerOn.configured = false ∧
    ({ State.powerOn with pending := [.request { opsel := 0xF#4 }] } : State).pending = .request { opsel := 0xF#4 } :: [] :=
  ⟨rfl, rfl⟩

/-- An accepted reset, a refused one and a request, each from an unconfigured block. -/
theorem witness_ChannelCountIsNeverReadBeforeReset :
    State.powerOn.configured = false ∧
    (∃ t, step { State.powerOn with pending := [.reset 2] } = .next t ∧ t.configured = true) ∧
    (∃ t, step { State.powerOn with pending := [.reset 3] } = .next t ∧ t.configured = false) ∧
    (∃ t, step { State.powerOn with pending := [.request { opsel := 0x0#4 }] } = .next t ∧ t.configured = false) :=
  ⟨rfl, ⟨_, rfl, rfl⟩, ⟨_, rfl, rfl⟩, ⟨_, rfl, rfl⟩⟩

theorem witness_StepRunsTheDecodedRequest :
    ({ blk 1#2 with pending := [.request { opsel := 0x8#4 }] } : State).pending = .request { opsel := 0x8#4 } :: [] ∧
    decode { opsel := 0x8#4 } = .ok .encStatusQ ∧ (blk 1#2).pending = [] := by decide

theorem witness_ReservedSelectorsAreRefusedWhateverTheirOperands :
    (blk 1#2).configured = true ∧ ((0xE#4 : BitVec 4) = 0xE#4 ∨ (0xE#4 : BitVec 4) = 0xF#4) ∧
    ((0xF#4 : BitVec 4) = 0xE#4 ∨ (0xF#4 : BitVec 4) = 0xF#4) ∧
    ({ blk 1#2 with pending := [.request { opsel := 0xE#4, slots := { ch := some (.num 1) } }] } : State).pending =
      .request { opsel := 0xE#4, slots := { ch := some (.num 1) } } :: [] := by decide

theorem witness_DecodedRequestIsTheEncoding : decode { opsel := 0x3#4, slots := { ch := some (.num 2) } } = .ok (.encVsetQ 2) := by
  decide

/-- One request for each selector below 14 that is ill formed: every selector with all the slots of another operation. -/
theorem witness_WronglyShapedRequestsAreRefused :
    (0xD#4 : BitVec 4).toNat < 14 ∧ (blk 1#2).configured = true ∧
    ∀ op : BitVec 4, Request.wellFormed { opsel := op, slots := { flag := some (.num 2) } } = false := by decide

/-- A legal channel with 5.005 V, whose 500.5 hundredths tie to 500; 100 V, which is out of range; a negative value; channel 2 of
one. -/
theorem witness_VsetDirectiveIsVerbChannelAndTwoDecimals :
    (blk 2#2).configured = true ∧ 1 ≤ 2 ∧ 2 ≤ (blk 2#2).channelCount.toNat ∧ (0 : Rat) ≤ 5005 / 1000 ∧
    IsNearestEven (5005 / 1000 * 100) 500 ∧ 500 ≤ 9999 ∧ IsNearestEven (9999 / 100 * 100) 9999 ∧ 9999 ≤ 9999 ∧
    IsNearestEven (99995 / 1000 * 100) 10000 ∧ 9999 < 10000 ∧
    (-1 : Rat) / 1000 < 0 ∧ ¬ (1 ≤ 2 ∧ 2 ≤ (blk 1#2).channelCount.toNat) ∧ ¬ (1 ≤ 0 ∧ 0 ≤ (blk 1#2).channelCount.toNat) := by
  refine ⟨rfl, by decide, by decide, by norm_num, ?_, by decide, ?_, by decide, ?_, by decide, by norm_num, by decide, by decide⟩ <;>
    (unfold IsNearestEven; norm_num [abs_of_nonneg, abs_of_neg])

theorem witness_IsetDirectiveIsVerbChannelAndThreeDecimals :
    (blk 1#2).configured = true ∧ 1 ≤ 1 ∧ 1 ≤ (blk 1#2).channelCount.toNat ∧ (0 : Rat) ≤ 15 / 10000 ∧
    IsNearestEven (15 / 10000 * 1000) 2 ∧ 2 ≤ 9999 ∧ IsNearestEven (9999 / 1000 * 1000) 9999 ∧
    IsNearestEven (10 * 1000) 10000 ∧ 9999 < 10000 ∧
    (-1 : Rat) / 1000 < 0 ∧ ¬ (1 ≤ 3 ∧ 3 ≤ (blk 2#2).channelCount.toNat) := by
  refine ⟨rfl, by decide, by decide, by norm_num, ?_, by decide, ?_, ?_, by decide, by norm_num, by decide⟩ <;>
    (unfold IsNearestEven; norm_num [abs_of_nonneg, abs_of_neg])

theorem witness_ChannelQueriesAreVerbChannelAndQuestionMark :
    (blk 2#2).configured = true ∧ 1 ≤ 1 ∧ 1 ≤ (blk 2#2).channelCount.toNat ∧ 1 ≤ 2 ∧ 2 ≤ (blk 2#2).channelCount.toNat ∧
    ¬ (1 ≤ 0 ∧ 0 ≤ (blk 2#2).channelCount.toNat) ∧ ¬ (1 ≤ 3 ∧ 3 ≤ (blk 2#2).channelCount.toNat) := by decide

/-- The refusal of other operands, as in every statement that says `RefusesOtherOperands`. -/
theorem witness_RefusesOtherOperands :
    (blk 1#2).configured = true ∧
    ({ blk 1#2 with pending := [.request { opsel := 0x1#4, slots := { ch := some (.num 1) } }] } : State).pending =
      .request { opsel := 0x1#4, slots := { ch := some (.num 1) } } :: [] ∧
    Request.wellFormed { opsel := 0x1#4, slots := { ch := some (.num 1) } } = false := by decide

/-- A fixed query, a set directive and the output directive. -/
theorem witness_CommandsHaveNoTerminator :
    (exec .encIdn (blk 1#2) = .next { blk 1#2 with rsp := some (.ok (.bytes [0x2A, 0x49, 0x44, 0x4E, 0x3F])) } ∧
      isQuery .encIdn = true) ∧
    (exec (.encVset 1 0) (blk 1#2) = .next { blk 1#2 with
        rsp := some (.ok (.bytes [0x56, 0x53, 0x45, 0x54, 0x31, 0x3A, 0x30, 0x2E, 0x30, 0x30])) } ∧
      isDirective (.encVset 1 0) = true) := ⟨⟨rfl, rfl⟩, ⟨rfl, rfl⟩⟩

theorem witness_IdentifyAndOutputOnAConfiguredBlock : (blk 1#2).configured = true ∧ (blk 2#2).configured = true := by decide

theorem witness_PaddedNumeralIsTheNumeralBehindZeros : 1 ≤ 1 ∧ 0 < 10 ^ 1 ∧ 1 ≤ 3 ∧ 999 < 10 ^ 3 ∧ 5 < 10 ^ 3 := by decide

theorem witness_NumeralIsTheShortestOne : 9999 ≠ 0 ∧ 0 = 0 := by decide

theorem witness_RoundingIsToNearestEven : (0 : Rat) ≤ 5 / 2 ∧ IsNearestEven (5 / 2) 2 ∧ IsNearestEven (7 / 2) 4 := by
  refine ⟨by norm_num, ?_, ?_⟩ <;> (unfold IsNearestEven; norm_num [abs_of_nonneg, abs_of_neg])

/-- "A", NUL, "B" before trailing NULs; and an empty kept part. -/
theorem witness_DecodedTextIsTheBytesBeforeTheTrailingNuls :
    (blk 1#2).configured = true ∧ (∀ b ∈ ([0x41#8, 0x00#8, 0x7F#8] : Bytes), b.toNat ≤ 0x7F) ∧
    ([0x41#8, 0x00#8, 0x7F#8] : Bytes).getLast? ≠ some 0x00#8 ∧
    (∀ b ∈ ([] : Bytes), b.toNat ≤ 0x7F) ∧ ([] : Bytes).getLast? ≠ some 0x00#8 := by decide

theorem witness_DecodeErrorNamesTheFirstHighByte :
    (blk 1#2).configured = true ∧ (∀ c ∈ ([0x41#8, 0x00#8] : Bytes), c.toNat ≤ 0x7F) ∧ 0x7F < (0x80#8 : Byte).toNat := by decide

/-- "12.5", "5." cut out of "5.9" by K = 2, and ".5". -/
theorem witness_StrictNumeralGivesItsExactValue :
    (blk 1#2).configured = true ∧ IsNumeral [0x31, 0x32, 0x2E, 0x35] [0x31, 0x32] [0x35] ∧
    ([0x35, 0x2E, 0x39] : Str).take 2 = [0x35, 0x2E] ∧ IsNumeral [0x35, 0x2E] [0x35] [] ∧
    IsNumeral [0x2E, 0x35] [] [0x35] :=
  ⟨rfl, .inr (.inl ⟨⟨by decide, by decide⟩, .inr ⟨by decide, by decide⟩, rfl⟩), rfl,
    .inr (.inl ⟨⟨by decide, by decide⟩, .inl rfl, rfl⟩), .inr (.inr ⟨rfl, ⟨by decide, by decide⟩, rfl⟩)⟩

/-- " 1" is no numeral and lenient; "" is neither. -/
theorem witness_OtherTextIsRefusedOrAParseError :
    (blk 1#2).configured = true ∧
    (∀ I F, ¬ IsNumeral [0x20#7, 0x31#7] I F) ∧ IsLenient [0x20#7, 0x31#7] ∧
    (∀ I F, ¬ IsNumeral [] I F) ∧ ¬ IsLenient [] := by
  refine ⟨rfl, ?_, ?_, ?_, ?_⟩
  · rintro I F (⟨⟨h1, h2⟩, -, h⟩ | ⟨⟨h1, h2⟩, -, h⟩ | ⟨-, -, h⟩)
    · subst h; exact absurd (h2 0x20#7 (by simp)) (by decide)
    · obtain ⟨c, cs, rfl⟩ := List.exists_cons_of_ne_nil h1
      have hc : (0x20#7 : Char7) = c := by simpa using (List.cons.inj h).1
      subst hc
      exact absurd (h2 0x20#7 (by simp)) (by decide)
    · exact absurd (List.cons.inj h).1 (by decide)
  · refine ⟨[0x20#7], [], [0x31#7], [], by decide, .inl rfl, .inl ⟨[0x31#7], [], .inl ?_, .inl rfl, rfl⟩, by decide, rfl⟩
    exact ⟨[[0x31#7]], by decide, by unfold IsDigits; decide, rfl⟩
  · rintro I F (⟨⟨h1, -⟩, -, h⟩ | ⟨-, -, h⟩ | ⟨-, -, h⟩)
    · exact h1 h.symm
    · simp at h
    · simp at h
  · rintro ⟨w, sg, b, w', -, -, hb, -, h⟩
    have hb0 : b = [] := by
      have := congrArg List.length h
      simp only [List.length_append, List.length_nil] at this
      exact List.length_eq_zero_iff.1 (by omega)
    subst hb0
    rcases hb with ⟨u, x, hu, -, hx⟩ | h | h | h
    · have hu0 : u = [] := (List.append_eq_nil_iff.1 hx.symm).1
      subst hu0
      rcases hu with ⟨gs, h1, h2, h3⟩ | ⟨I, F, -, -, h3⟩ | ⟨F, -, h3⟩
      · obtain ⟨g, gs, rfl⟩ := List.exists_cons_of_ne_nil h1
        have hg := h2 g (by simp)
        cases gs with
        | nil => simp [List.intercalate] at h3; exact hg.1 h3
        | cons a as => simp [List.intercalate] at h3
      · simp at h3
      · simp at h3
    · exact absurd h (by decide)
    · exact absurd h (by decide)
    · exact absurd h (by decide)

theorem witness_StrictNumeralsAreLenient : IsNumeral [0x35, 0x2E] [0x35] [] :=
  .inr (.inl ⟨⟨by decide, by decide⟩, .inl rfl, rfl⟩)

theorem witness_VoltageRoundTripsToWithinHalfAUnit :
    (blk 1#2).configured = true ∧ exec (.encVset 1 (mkRat 99994 1000)) (blk 1#2) = .next { blk 1#2 with
      rsp := some (.ok (.bytes [0x56, 0x53, 0x45, 0x54, 0x31, 0x3A, 0x39, 0x39, 0x2E, 0x39, 0x39])) } := ⟨rfl, rfl⟩

theorem witness_CurrentRoundTripsToWithinHalfAUnit :
    (blk 1#2).configured = true ∧ exec (.encIset 1 (mkRat 3 2)) (blk 1#2) = .next { blk 1#2 with
      rsp := some (.ok (.bytes [0x49, 0x53, 0x45, 0x54, 0x31, 0x3A, 0x31, 0x2E, 0x35, 0x30, 0x30])) } := ⟨rfl, rfl⟩

theorem witness_StatusReplyIsExactlyOneByte :
    (blk 1#2).configured = true ∧ ([] : Bytes).length ≠ 1 ∧ ([0x41, 0x00] : Bytes).length ≠ 1 := by decide

theorem witness_StatusFieldsStatements :
    (blk 1#2).configured = true ∧ (blk 1#2).channelCount = 1#2 ∧ (blk 2#2).configured = true ∧ (blk 2#2).channelCount = 2#2 ∧
    (0x00#8 : Byte).extractLsb' 2 2 = 0#2 ∧ (0x04#8 : Byte).extractLsb' 2 2 = 1#2 ∧
    (0x08#8 : Byte).extractLsb' 2 2 = 2#2 ∧ (0x0C#8 : Byte).extractLsb' 2 2 = 3#2 := by decide

theorem witness_DeviceStatusTakesFourReadsAChannel :
    ([12, 1, 12, 0] : List Rat).length = 4 * (blk 1#2).channelCount.toNat ∧
    ([30, 3, 29, 1, 5, 0, 5, 0] : List Rat).length = 4 * (blk 2#2).channelCount.toNat := by decide

theorem witness_WrongNumberOfReadsIsRefused :
    (blk 1#2).configured = true ∧ ([1, 2, 3] : List Rat).length ≠ 4 * (blk 1#2).channelCount.toNat := by decide

/-- The invariant holds after reset with an input of each kind, and such a state steps. -/
theorem witness_EveryStepKeepsTheInvariant :
    ({ State.reset with pending := [.reset 2] } : State).Inv ∧
    (∃ t, step { State.reset with pending := [.reset 2] } = .next t ∧ t.channelCount = 2#2) := by
  refine ⟨⟨fun _ => .inl rfl, ?_⟩, _, rfl, rfl⟩
  intro r h
  cases h

theorem witness_NextStateStatements :
    ∃ t, exec .encIdn (blk 1#2) = .next t ∧ t.rsp ≠ none ∧ (blk 1#2).configured = true :=
  ⟨_, rfl, by decide, rfl⟩

theorem witness_OnlyAnAcceptedResetConfigures :
    ∃ t, step { blk 1#2 with pending := [.reset 2] } = .next t ∧ t.channelCount ≠ (blk 1#2).channelCount :=
  ⟨_, rfl, by decide⟩

theorem witness_OrderOfOperationsChangesNoOutcome :
    ∃ si sj sij sji, exec .encIdn (blk 1#2) = .next si ∧ exec (.encVoutQ 3) (blk 1#2) = .next sj ∧
      exec (.encVoutQ 3) si = .next sij ∧ exec .encIdn sj = .next sji :=
  ⟨_, _, _, _, rfl, rfl, rfl, rfl⟩

theorem witness_HighByteDecidesEveryTextPipeline :
    ReplyKind.current ≠ .status ∧ (∀ c ∈ ([0x31, 0x2E, 0x32, 0x35, 0x30] : Bytes), c.toNat ≤ 0x7F) ∧
    0x7F < (0xC3#8 : Byte).toNat := by decide

/-- P2's replies: a reading with noise, and one padded with NULs (spec/95_test_vectors.md, program P2). -/
theorem witness_NoiseBehindACurrentReadingIsCutOff :
    ([0x30, 0x2E, 0x35, 0x30, 0x30] : Bytes).length = 5 ∧ ([0x30, 0x2E, 0x35, 0x30, 0x30] : Bytes).getLast? ≠ some 0x00#8 ∧
    (∀ b ∈ ([0x34, 0x4B] : Bytes), b.toNat ≤ 0x7F) ∧ (∀ b ∈ ([0x00, 0x00] : Bytes), b.toNat ≤ 0x7F) ∧
    (∀ b ∈ ([0x00, 0x7F, 0x00] : Bytes), b.toNat ≤ 0x7F) := by decide

theorem witness_TransactionEndsWithTheFirstReply : ([0x31] : Bytes) ≠ [] := by decide

/-- P2's replies. -/
theorem witness_StatusReadIsAllOrNothing :
    ∃ v, facadeStatus 1#2 [[], [0x41]]
      [[[0x31, 0x32, 0x2E, 0x35, 0x30]], [[0x31, 0x2E, 0x32, 0x35, 0x30, 0x00, 0x00]], [[0x31, 0x32, 0x2E, 0x34, 0x39]],
        [[0x30, 0x2E, 0x35, 0x30, 0x30, 0x34, 0x4B]]] = .ok v ∧
      v = .status
        { channels := [⟨.cc, mkRat 25 2, mkRat 5 4, mkRat 1249 100, mkRat 1 2⟩], track := .independent
          beep := false, lock := false, output := true } := ⟨_, rfl, by decide +kernel⟩

/-- A status loop that fails; a status byte with no reply to query 0; and one whose queries 0 and 1 succeed and query 2 does not. -/
theorem witness_StatusReadIsAllOrNothing_failures :
    (∃ e, statusLoop [[], [0x41, 0x00], []] = .error e) ∧ statusLoop [[0x41]] = .ok 0x41#8 ∧
    (∀ v, statusRead [] 0 ≠ .ok v) ∧
    (∃ v, statusRead [[[0x31]], [[0x31]], [[0xFF]]] 0 = .ok v) ∧ (∃ v, statusRead [[[0x31]], [[0x31]], [[0xFF]]] 1 = .ok v) ∧
    (∀ v, statusRead [[[0x31]], [[0x31]], [[0xFF]]] 2 ≠ .ok v) :=
  ⟨⟨_, rfl⟩, rfl, fun _ h => Response.noConfusion h, ⟨_, rfl⟩, ⟨_, rfl⟩, fun _ h => Response.noConfusion h⟩

/-- Every query answered, on a block with two channels. -/
theorem witness_StatusReadIsAllOrNothing_success :
    statusLoop [[0x41]] = .ok 0x41#8 ∧
    ∀ n < 4 * (2#2 : BitVec 2).toNat, ∃ v, statusRead (List.replicate 8 [[0x31]]) n = .ok v := by
  refine ⟨rfl, fun n hn => ?_⟩
  have hn : n < 8 := hn
  interval_cases n <;> exact ⟨_, rfl⟩

/-- No attempt, two and three attempts that give no single byte. -/
theorem witness_StatusLoopEndsWithTheFirstSingleByte :
    (∀ buf ∈ ([] : List Bytes), buf.length ≠ 1) ∧
    (∀ buf ∈ ([[], [0x41, 0x00]] : List Bytes), buf.length ≠ 1) ∧ ([[], [0x41, 0x00]] : List Bytes).length < 3 ∧
    (∀ buf ∈ ([[], [], []] : List Bytes), buf.length ≠ 1) ∧ 3 ≤ ([[], [], []] : List Bytes).length := by decide

end Sys2Proof.Tests
end

/-! The status decoder's fields (R27, R28): what DEC_STATUS_FIELDS answers, each mode by its bit, the tracking mode by its field. -/

namespace Sys2Proof.Machine

/-- On a configured block DEC_STATUS_FIELDS answers the fields of the byte and changes RSP only (R121). -/
theorem exec_decStatusFields_of_configured (s : State) (b : Byte) (h : s.configured = true) :
    exec (.decStatusFields b) s = .next { s with rsp := some (.ok (.fields (statusFields s.channelCount b))) } :=
  calc exec (.decStatusFields b) s
      = answer s (.ok (.fields (statusFields s.channelCount b))) := exec_eq_answer _ s
    _ = .next (s.respond (.ok (.fields (statusFields s.channelCount b)))) := answer_configured s _ h
    _ = .next { s with rsp := some (.ok (.fields (statusFields s.channelCount b))) } := by
      rw [respond_of_not_refused s _ (isRefused_ok _)]

theorem statusFields_firstMode (count : BitVec 2) (b : Byte) :
    (statusFields count b).modes[0]? = some (if b.getLsbD 0 then .cc else .cv) := rfl

theorem statusFields_secondMode (b : Byte) :
    (statusFields 2#2 b).modes[1]? = some (if b.getLsbD 1 then .cc else .cv) := rfl

/-- The arithmetic slice `b[hi:lo]` of R6 is the bit vector's own. -/
theorem bitsOf_eq_toNat_extractLsb' (b : Byte) (hi lo : Nat) :
    bitsOf b hi lo = (b.extractLsb' lo (hi - lo + 1)).toNat := by
  rw [bitsOf, BitVec.extractLsb'_toNat, Nat.shiftRight_eq_div_pow]

theorem statusFields_track (count : BitVec 2) (b : Byte) :
    (statusFields count b).track = trackOf (b.extractLsb' 2 2).toNat :=
  congrArg trackOf (bitsOf_eq_toNat_extractLsb' b 3 2)

/-- Settles O32: the fields answered are those of the byte, and `statusFields` reads each mode and the tracking mode by its
enumeration. -/
theorem modeAndTrackingDecodeByTheirEnumerations : Obligations.ModeAndTrackingDecodeByTheirEnumerations := by
  intro s b hconf _
  have track_of_field (v : BitVec 2) (hv : b.extractLsb' 2 2 = v) :
      (statusFields s.channelCount b).track = trackOf v.toNat := hv ▸ statusFields_track s.channelCount b
  refine ⟨statusFields s.channelCount b, exec_decStatusFields_of_configured s b hconf,
    statusFields_firstMode s.channelCount b, fun htwo => ?_,
    track_of_field 0#2, track_of_field 1#2, track_of_field 2#2, track_of_field 3#2⟩
  rw [htwo]
  exact statusFields_secondMode b

end Sys2Proof.Machine

/-! The response decoder's text (R44, R100): trailing NULs are stripped, what is left is kept, and the 7-bit bytes of it are the
characters. -/

namespace Sys2Proof.Machine

/-- NULs that end the scanned bytes are scanned past. -/
theorem keptLength_past_nuls (kept : Bytes) (n m : Nat) (hm : m ≤ n) :
    keptLength (kept ++ List.replicate n 0x00#8) (kept.length + m) =
      keptLength (kept ++ List.replicate n 0x00#8) kept.length := by
  induction m with
  | zero => rfl
  | succ m ih =>
    have hnul : memRead (kept ++ List.replicate n 0x00#8) (kept.length + m) 1 = [0x00#8] := by
      rw [memRead_one _ _ (by simp; omega)]
      simp
    rw [← Nat.add_assoc, keptLength, if_pos hnul]
    exact ih (by omega)

/-- Scanned bytes that end in no NUL are all kept, whatever stands behind them. -/
theorem keptLength_of_getLast?_ne_nul (kept post : Bytes) (hlast : kept.getLast? ≠ some 0x00#8) :
    keptLength (kept ++ post) kept.length = kept.length := by
  cases kept using List.reverseRecOn with
  | nil => rfl
  | append_singleton bs b =>
    have hb : memRead (bs ++ [b] ++ post) bs.length 1 ≠ [0x00#8] := by
      rw [memRead_one _ _ (by simp)]
      simpa using hlast
    rw [List.length_append, List.length_singleton, keptLength, if_neg hb]

/-- Stripping gives back the part before the trailing NULs (R44). -/
theorem keptBytes_append_nuls (kept : Bytes) (n : Nat) (hlast : kept.getLast? ≠ some 0x00#8) :
    keptBytes (kept ++ List.replicate n 0x00#8) = kept := by
  rw [keptBytes, List.length_append, List.length_replicate, keptLength_past_nuls kept n n le_rfl,
    keptLength_of_getLast?_ne_nul kept _ hlast]
  simp [memRead]

/-- A kept part of 7-bit bytes is answered as text, one character for each byte (R100). -/
theorem respDecText_of_sevenBit (buf : Bytes) (h : ∀ b ∈ keptBytes buf, b.toNat ≤ 0x7F) :
    respDecText buf = .ok (.text ((keptBytes buf).map fun b => b.truncate 7)) := by
  rw [respDecText, firstHigh_eq_none _ 0 h]

/-- The characters of 7-bit bytes are those bytes. -/
theorem asBytes_map_truncate (bs : Bytes) (h : ∀ b ∈ bs, b.toNat ≤ 0x7F) :
    asBytes (bs.map fun b => b.truncate 7) = bs := by
  have byte_of_char (b : Byte) (hb : b ∈ bs) : (b.truncate 7).zeroExtend 8 = b := by
    have := h b hb
    apply BitVec.eq_of_toNat_eq
    simp
    omega
  rw [asBytes, List.map_map]
  exact (List.map_congr_left byte_of_char).trans (List.map_id bs)

/-- On a configured block DEC_TEXT answers a kept part of 7-bit bytes as text and changes RSP only. -/
theorem exec_decText_of_sevenBit (s : State) (buf : Bytes) (hconf : s.configured = true)
    (h : ∀ b ∈ keptBytes buf, b.toNat ≤ 0x7F) :
    exec (.decText buf) s = .next { s with rsp := some (.ok (.text ((keptBytes buf).map fun b => b.truncate 7))) } :=
  calc exec (.decText buf) s
      = answer s (respDecText buf) := exec_eq_answer _ s
    _ = .next (s.respond (.ok (.text ((keptBytes buf).map fun b => b.truncate 7)))) := by
      rw [respDecText_of_sevenBit buf h, answer_configured s _ hconf]
    _ = .next { s with rsp := some (.ok (.text ((keptBytes buf).map fun b => b.truncate 7))) } := by
      rw [respond_of_not_refused s _ (isRefused_ok _)]

/-- Settles O22: what stripping leaves is the part before the trailing NULs, and its 7-bit bytes are the text's characters. -/
theorem decodedTextIsTheBytesBeforeTheTrailingNuls : Obligations.DecodedTextIsTheBytesBeforeTheTrailingNuls := by
  intro s kept n hconf hseven hlast
  have hkept := keptBytes_append_nuls kept n hlast
  have hexec := exec_decText_of_sevenBit s (kept ++ List.replicate n 0x00#8) hconf (by rwa [hkept])
  rw [hkept] at hexec
  exact ⟨kept.map fun b => b.truncate 7, asBytes_map_truncate kept hseven, hexec⟩

end Sys2Proof.Machine

/-! The decimal numerals (R66, R67): `dec` by its last digit, `pad` as the numeral behind zeros, and both made of digits only. -/

namespace Sys2Proof.Machine

/-- Any fuel above the number gives the same numeral. -/
theorem decFrom_eq_of_lt (f g n : Nat) (hf : n < f) (hg : n < g) : decFrom f n = decFrom g n := by
  induction f generalizing g n with
  | zero => omega
  | succ f ih =>
    obtain ⟨g, rfl⟩ : ∃ k, g = k + 1 := ⟨g - 1, by omega⟩
    rw [decFrom, decFrom]
    split
    · rfl
    · rw [ih g (n / 10) (by omega) (by omega)]

/-- A numeral of two digits or more is that of the tens with the units' digit behind it. -/
theorem dec_of_ten_le (n : Nat) (h : 10 ≤ n) : dec n = dec (n / 10) ++ [digitChar (n % 10)] := by
  rw [dec, decFrom, if_neg (by omega), decFrom_eq_of_lt n (n / 10 + 1) (n / 10) (by omega) (by omega), dec]

theorem pad_zero (p : Nat) : pad 0 p = List.replicate p (digitChar 0) := by
  induction p with
  | zero => rfl
  | succ p ih => rw [pad, Nat.zero_div, ih, List.replicate_succ']

/-- Padding puts zeros before the numeral, where it fits. Both lose their last digit at once, until one digit is left. -/
theorem pad_eq_zeros_append_dec (p n : Nat) (h : n < 10 ^ (p + 1)) :
    (dec n).length ≤ p + 1 ∧ pad n (p + 1) = List.replicate (p + 1 - (dec n).length) (digitChar 0) ++ dec n := by
  induction p generalizing n with
  | zero =>
    have hn : n < 10 := by simpa using h
    simp [pad, dec_of_lt_ten n hn, Nat.mod_eq_of_lt hn]
  | succ p ih =>
    rw [pad]
    rcases lt_or_ge n 10 with hn | hn
    · rw [Nat.div_eq_of_lt hn, Nat.mod_eq_of_lt hn, pad_zero, dec_of_lt_ten n hn]
      simp
    · obtain ⟨hlen, hpad⟩ := ih (n / 10) (by rw [pow_succ] at h; omega)
      rw [hpad, dec_of_ten_le n hn, List.length_append, List.length_singleton, Nat.add_sub_add_right, List.append_assoc]
      exact ⟨by omega, rfl⟩

/-- Settles O18: `pad n p` is the numeral behind zeros, and `pad` always gives `p` characters. -/
theorem paddedNumeralIsTheNumeralBehindZeros : Obligations.PaddedNumeralIsTheNumeralBehindZeros := by
  intro n p hp hn
  obtain ⟨p, rfl⟩ : ∃ k, p = k + 1 := ⟨p - 1, by omega⟩
  obtain ⟨hlen, hpad⟩ := pad_eq_zeros_append_dec p n hn
  exact ⟨hlen, hpad, pad_length n (p + 1)⟩

theorem isDigit_of_mem_dec (n : Nat) : ∀ c ∈ dec n, isDigit c = true := by
  induction n using Nat.strong_induction_on with
  | h n ih =>
    rcases lt_or_ge n 10 with hn | hn
    · simpa [dec_of_lt_ten n hn] using isDigit_digitChar n hn
    · rw [dec_of_ten_le n hn]
      exact List.forall_mem_append.2
        ⟨ih (n / 10) (by omega), by simpa using isDigit_digitChar (n % 10) (by omega)⟩

theorem isDigit_of_mem_pad (n p : Nat) : ∀ c ∈ pad n p, isDigit c = true := by
  induction p generalizing n with
  | zero => simp [pad]
  | succ p ih =>
    rw [pad]
    exact List.forall_mem_append.2 ⟨ih (n / 10), by simpa using isDigit_digitChar (n % 10) (by omega)⟩

end Sys2Proof.Machine

/-! The commands' characters (R62, R64): every command text is printable, a query's ends in `?` and a directive's in a digit, and
TX holds it byte by byte. -/

namespace Sys2Proof.Machine

/-- The printable characters of R64, `!` to `~`: no blank and no control character. -/
def isPrintable (c : Char7) : Bool := decide (0x21 ≤ c.toNat) && decide (c.toNat ≤ 0x7E)

theorem isPrintable_of_isDigit (c : Char7) (h : isDigit c = true) : isPrintable c = true := by
  simp only [isDigit, Bool.and_eq_true, decide_eq_true_eq] at h
  simp only [isPrintable, Bool.and_eq_true, decide_eq_true_eq]
  omega

theorem isPrintable_of_mem_dec (n : Nat) : ∀ c ∈ dec n, isPrintable c = true :=
  fun c hc => isPrintable_of_isDigit c (isDigit_of_mem_dec n c hc)

theorem isPrintable_of_mem_channelText (ch : Option Nat) : ∀ c ∈ channelText ch, isPrintable c = true := by
  cases ch with
  | none => simp [channelText]
  | some ch => exact isPrintable_of_mem_dec ch

theorem isPrintable_of_mem_decimalText (n p : Nat) : ∀ c ∈ decimalText n p, isPrintable c = true := by
  have hpad (c : Char7) (hc : c ∈ pad (n % 10 ^ p) p) : isPrintable c = true :=
    isPrintable_of_isDigit c (isDigit_of_mem_pad _ p c hc)
  exact List.forall_mem_append.2 ⟨List.forall_mem_append.2 ⟨isPrintable_of_mem_dec _, by decide⟩, hpad⟩

/-- A fixed-decimal text with decimals ends in the units' digit of its number. -/
theorem decimalText_getLast? (n p : Nat) : (decimalText n (p + 1)).getLast? = some (digitChar (n % 10)) := by
  have hunits : n % 10 ^ (p + 1) % 10 = n % 10 := Nat.mod_mod_of_dvd n (dvd_pow_self 10 (Nat.succ_ne_zero p))
  rw [decimalText, pad, hunits, ← List.append_assoc, List.getLast?_concat]

/-- TX ends in the byte of the text's last character. -/
theorem txOf_getLast? (t : Str) : (txOf t).getLast? = t.getLast?.map fun c => c.zeroExtend 8 := by
  rw [txOf_eq_map, List.getLast?_map]

theorem zeroExtend_digitChar (d : Nat) (h : d < 10) : (digitChar d).zeroExtend 8 = digitByte d := by
  apply BitVec.eq_of_toNat_eq
  simp [digitByte, digitChar_toNat d h]

/-- A printable character is no CR, LF or NUL. -/
theorem ne_terminator_of_mem_txOf (t : Str) (h : ∀ c ∈ t, isPrintable c = true) :
    ∀ b ∈ txOf t, b ≠ 0x0D#8 ∧ b ≠ 0x0A#8 ∧ b ≠ 0x00#8 := by
  rw [txOf_eq_map, List.forall_mem_map]
  intro c hc
  have hc := h c hc
  simp only [isPrintable, Bool.and_eq_true, decide_eq_true_eq] at hc
  bv_omega

/-- The text of a query (R75): printable, with `?` at its end. -/
structure IsQueryText (t : Str) : Prop where
  printable : ∀ c ∈ t, isPrintable c = true
  ends : t.getLast? = some chQuery

/-- The text of a directive (R76, R87): printable, with a digit at its end. -/
structure IsDirectiveText (t : Str) : Prop where
  printable : ∀ c ∈ t, isPrintable c = true
  ends : ∃ d, d < 10 ∧ t.getLast? = some (digitChar d)

theorem isQueryText_append_query (verb : Str) (ch : Option Nat) (hverb : ∀ c ∈ verb, isPrintable c = true) :
    IsQueryText (verb ++ channelText ch ++ [chQuery]) where
  printable := List.forall_mem_append.2
    ⟨List.forall_mem_append.2 ⟨hverb, isPrintable_of_mem_channelText ch⟩, by decide⟩
  ends := List.getLast?_concat

theorem isDirectiveText_append_decimalText (verb : Str) (ch n p : Nat) (hverb : ∀ c ∈ verb, isPrintable c = true) :
    IsDirectiveText (verb ++ dec ch ++ [chColon] ++ decimalText n (p + 1)) where
  printable := List.forall_mem_append.2
    ⟨List.forall_mem_append.2 ⟨List.forall_mem_append.2 ⟨hverb, isPrintable_of_mem_dec ch⟩, by decide⟩,
      isPrintable_of_mem_decimalText n (p + 1)⟩
  ends := ⟨n % 10, Nat.mod_lt n (by decide), by rw [List.getLast?_append, decimalText_getLast?]; rfl⟩

/-- The bytes that a query behind the channel check answers with. -/
theorem checkChannel_encodeQuery_ok (count : BitVec 2) (ch : Nat) (verb : Str) (tx : Bytes)
    (hverb : ∀ c ∈ verb, isPrintable c = true)
    (h : checkChannel count ch (.ok (.bytes (encodeQuery verb (some ch)))) = .ok (.bytes tx)) :
    ∃ t, IsQueryText t ∧ tx = txOf t := by
  obtain ⟨-, hbytes⟩ := checkChannel_ok count ch _ _ h
  cases hbytes
  exact ⟨_, isQueryText_append_query verb (some ch) hverb, rfl⟩

/-- The bytes that a set directive with decimals, behind the channel check, answers with. -/
theorem checkChannel_encodeDirective_ok (count : BitVec 2) (ch : Nat) (verb : Str) (x : Rat) (p max : Nat) (tx : Bytes)
    (hverb : ∀ c ∈ verb, isPrintable c = true)
    (h : checkChannel count ch (encodeDirective verb ch x (p + 1) max) = .ok (.bytes tx)) :
    ∃ t, IsDirectiveText t ∧ tx = txOf t := by
  obtain ⟨-, hbytes⟩ := checkChannel_ok count ch _ _ h
  rcases encodeDirective_cases verb ch x (p + 1) max with ⟨-, -, hok⟩ | ⟨-, hrange⟩
  · rw [hok] at hbytes
    cases hbytes
    exact ⟨_, isDirectiveText_append_decimalText verb ch _ p hverb, rfl⟩
  · rw [hrange] at hbytes
    cases hbytes

/-- A query that answers with bytes answers with a query's text. -/
theorem isQueryText_of_outcome (count : BitVec 2) (i : Instr) (tx : Bytes) (hq : isQuery i = true)
    (h : outcomeOf count i = .ok (.bytes tx)) : ∃ t, IsQueryText t ∧ tx = txOf t := by
  cases i with
  | encIdn => cases h; exact ⟨_, isQueryText_append_query verbIdn none (by decide), rfl⟩
  | encStatusQ => cases h; exact ⟨_, isQueryText_append_query verbStatus none (by decide), rfl⟩
  | encVsetQ ch => exact checkChannel_encodeQuery_ok count ch verbVset tx (by decide) h
  | encIsetQ ch => exact checkChannel_encodeQuery_ok count ch verbIset tx (by decide) h
  | encVoutQ ch => exact checkChannel_encodeQuery_ok count ch verbVout tx (by decide) h
  | encIoutQ ch => exact checkChannel_encodeQuery_ok count ch verbIout tx (by decide) h
  | _ => cases hq

/-- R87: the output directive's text, for each FLAG. -/
theorem isDirectiveText_out (flag : Bit) :
    IsDirectiveText (verbOut ++ (if flag = 1#1 then [digitChar 1] else [digitChar 0])) := by
  split
  · exact ⟨by decide, 1, by decide, rfl⟩
  · exact ⟨by decide, 0, by decide, rfl⟩

/-- A directive that answers with bytes answers with a directive's text. -/
theorem isDirectiveText_of_outcome (count : BitVec 2) (i : Instr) (tx : Bytes) (hd : isDirective i = true)
    (h : outcomeOf count i = .ok (.bytes tx)) : ∃ t, IsDirectiveText t ∧ tx = txOf t := by
  cases i with
  | encVset ch x => exact checkChannel_encodeDirective_ok count ch verbVset x 1 _ tx (by decide) h
  | encIset ch x => exact checkChannel_encodeDirective_ok count ch verbIset x 2 _ tx (by decide) h
  | encOut flag => cases h; exact ⟨_, isDirectiveText_out flag, rfl⟩
  | _ => cases hd

theorem respDecText_ne_bytes (buf tx : Bytes) : respDecText buf ≠ .ok (.bytes tx) := by
  unfold respDecText
  split <;> nofun

theorem respDecFloat_ne_bytes (t : Str) (k : Option Nat) (tx : Bytes) : respDecFloat t k ≠ .ok (.bytes tx) := by
  unfold respDecFloat
  split
  · nofun
  · split <;> nofun

theorem respDecStatusRaw_ne_bytes (buf tx : Bytes) : respDecStatusRaw buf ≠ .ok (.bytes tx) := by
  unfold respDecStatusRaw
  split <;> nofun

theorem respDecodeStatus_ne_bytes (count : BitVec 2) (sb : Byte) (reads : List Rat) (tx : Bytes) :
    respDecodeStatus count sb reads ≠ .ok (.bytes tx) := by
  unfold respDecodeStatus
  split <;> nofun

/-- The decoders answer with no command: what answers with bytes is an encoder. -/
theorem isQuery_or_isDirective_of_outcome (count : BitVec 2) (i : Instr) (tx : Bytes)
    (h : outcomeOf count i = .ok (.bytes tx)) : isQuery i = true ∨ isDirective i = true := by
  cases i with
  | decText buf => exact absurd h (respDecText_ne_bytes buf tx)
  | decFloat t k => exact absurd h (respDecFloat_ne_bytes t k tx)
  | decStatusRaw buf => exact absurd h (respDecStatusRaw_ne_bytes buf tx)
  | decStatusFields sb => cases h
  | decodeStatus sb reads => exact absurd h (respDecodeStatus_ne_bytes count sb reads tx)
  | encVset | encIset | encOut => exact .inr rfl
  | encIdn | encVsetQ | encIsetQ | encVoutQ | encIoutQ | encStatusQ => exact .inl rfl

/-- An `Ok` on RSP right after an instruction is that instruction's outcome on a configured block. -/
theorem outcomeOf_of_exec_ok (i : Instr) (s t : State) (v : Result) (h : exec i s = .next t)
    (hrsp : t.rsp = some (.ok v)) : outcomeOf s.channelCount i = .ok v := by
  rw [exec_eq_answer] at h
  rcases answer_cases s t _ h with ⟨-, rfl⟩ | ⟨-, rfl⟩
  · simpa using hrsp
  · simp at hrsp

/-- Settles O17: what answers with bytes is a query or a directive, and the text of either is printable and ends as R62 says. -/
theorem commandsHaveNoTerminator : Obligations.CommandsHaveNoTerminator := by
  intro i s t tx hexec hrsp
  have hout := outcomeOf_of_exec_ok i s t (.bytes tx) hexec hrsp
  have hkind := isQuery_or_isDirective_of_outcome s.channelCount i tx hout
  refine ⟨?_, fun hq => ?_, fun hd => ?_, hkind⟩
  · rcases hkind with hq | hd
    · obtain ⟨txt, htxt, rfl⟩ := isQueryText_of_outcome s.channelCount i tx hq hout
      exact ne_terminator_of_mem_txOf txt htxt.printable
    · obtain ⟨txt, htxt, rfl⟩ := isDirectiveText_of_outcome s.channelCount i tx hd hout
      exact ne_terminator_of_mem_txOf txt htxt.printable
  · obtain ⟨txt, htxt, rfl⟩ := isQueryText_of_outcome s.channelCount i tx hq hout
    rw [txOf_getLast?, htxt.ends]
    rfl
  · obtain ⟨txt, htxt, rfl⟩ := isDirectiveText_of_outcome s.channelCount i tx hd hout
    obtain ⟨d, hten, hlast⟩ := htxt.ends
    exact ⟨d, hten, by rw [txOf_getLast?, hlast, Option.map_some, zeroExtend_digitChar d hten]⟩

end Sys2Proof.Machine

/-! Requests and instructions (R24, R55, R56): each slot conversion reads exactly the value that the encoder writes, so decoding and
encoding are inverse, and what decodes is well formed. -/

namespace Sys2Proof

theorem slotNat_eq_some (o : Option Operand) (n : Nat) : slotNat o = some n ↔ o = some (natOperand n) := by
  rcases o with - | q | qs
  · simp [slotNat]
  · simp [slotNat, natOperand, numNat_eq_some]
  · simp [slotNat, natOperand]

theorem slotRat_eq_some (o : Option Operand) (q : Rat) : slotRat o = some q ↔ o = some (.num q) := by
  rcases o with - | q' | qs <;> simp [slotRat]

/-- An absent slot is K = none (log 7). -/
theorem slotOptNat_eq_some (o : Option Operand) (k : Option Nat) : slotOptNat o = some k ↔ o = k.map natOperand := by
  rcases o with - | q | qs
  · cases k <;> simp [slotOptNat]
  · cases k <;> simp [slotOptNat, natOperand, numNat_eq_some]
  · cases k <;> simp [slotOptNat, natOperand]

theorem slotBits_eq_some {w : Nat} (o : Option Operand) (b : BitVec w) :
    slotBits w o = some b ↔ o = some (natOperand b.toNat) := by
  rcases o with - | q | qs
  · simp [slotBits]
  · simp [slotBits, natOperand, numBits_eq_some]
  · simp [slotBits, natOperand]

theorem slotSeq_eq_some {w : Nat} (o : Option Operand) (bs : List (BitVec w)) :
    slotSeq w o = some bs ↔ o = some (bitsOperand bs) := by
  rcases o with - | q | qs
  · simp [slotSeq]
  · simp [slotSeq, bitsOperand]
  · simp [slotSeq, bitsOperand, seqBits_eq_some]

theorem slotRats_eq_some (o : Option Operand) (qs : List Rat) : slotRats o = some qs ↔ o = some (.seq qs) := by
  rcases o with - | q | qs' <;> simp [slotRats]

/-- The selector and the slots that decode to an instruction are those of its request: no slot and no value is dropped. -/
theorem opsel_slots_of_decodeSlots (opsel : Nat) (t : Slots) (i : Instr) (h : decodeSlots opsel t = some i) :
    opsel = (encode i).opsel.toNat ∧ t = (encode i).slots := by
  unfold decodeSlots at h
  split at h <;>
    simp only [Option.ite_none_right_eq_some, Option.map_eq_some_iff, Option.bind_eq_some_iff, Option.some.injEq, slotNat_eq_some,
      slotRat_eq_some, slotOptNat_eq_some, slotBits_eq_some, slotSeq_eq_some, slotRats_eq_some, reduceCtorEq] at h
  -- no slot: ENC_IDN, ENC_STATUS_Q
  case h_1 | h_9 =>
    obtain ⟨ht, rfl⟩ := h
    exact ⟨rfl, ht⟩
  -- two slots: the set directives, DEC_FLOAT, DECODE_STATUS
  case h_2 | h_3 | h_11 | h_14 =>
    obtain ⟨ht, x, hx, y, hy, rfl⟩ := h
    exact ⟨rfl, ht.trans (by rw [hx, hy]; rfl)⟩
  -- one slot: all other operations
  all_goals
    obtain ⟨ht, x, hx, rfl⟩ := h
    exact ⟨rfl, ht.trans (by rw [hx]; rfl)⟩

theorem eq_encode_of_decodeSlots (r : Request) (i : Instr) (h : decodeSlots r.opsel.toNat r.slots = some i) :
    r = encode i := by
  obtain ⟨hopsel, hslots⟩ := opsel_slots_of_decodeSlots r.opsel.toNat r.slots i h
  exact congr (congrArg Request.mk (BitVec.eq_of_toNat_eq hopsel)) hslots

@[simp] theorem slotNat_natOperand (n : Nat) : slotNat (some (natOperand n)) = some n :=
  (slotNat_eq_some _ n).2 rfl

@[simp] theorem slotRat_num (q : Rat) : slotRat (some (.num q)) = some q := rfl

@[simp] theorem slotOptNat_map_natOperand (k : Option Nat) : slotOptNat (k.map natOperand) = some k :=
  (slotOptNat_eq_some _ k).2 rfl

@[simp] theorem slotBits_natOperand {w : Nat} (b : BitVec w) : slotBits w (some (natOperand b.toNat)) = some b :=
  (slotBits_eq_some _ b).2 rfl

@[simp] theorem slotSeq_bitsOperand {w : Nat} (bs : List (BitVec w)) : slotSeq w (some (bitsOperand bs)) = some bs :=
  (slotSeq_eq_some _ bs).2 rfl

@[simp] theorem slotRats_seq (qs : List Rat) : slotRats (some (.seq qs)) = some qs := rfl

/-- Each slot of an instruction's request reads back as the operand it was written from. -/
theorem decodeSlots_encode (i : Instr) : decodeSlots (encode i).opsel.toNat (encode i).slots = some i := by
  cases i <;> simp [encode, decodeSlots]

theorem encode_opsel_lt (i : Instr) : (encode i).opsel.toNat < 14 := by
  cases i <;> simp [encode]

/-- Behind a selector that is not reserved, `decode` is `decodeSlots` (R143). -/
theorem decode_of_decodeSlots_some (r : Request) (i : Instr) (hop : r.opsel.toNat < 14)
    (h : decodeSlots r.opsel.toNat r.slots = some i) : decode r = .ok i := by
  rw [decode, if_neg (by omega), h]

theorem decode_of_decodeSlots_none (r : Request) (hop : r.opsel.toNat < 14)
    (h : decodeSlots r.opsel.toNat r.slots = none) : decode r = .error .operand := by
  rw [decode, if_neg (by omega), h]

theorem decode_encode (i : Instr) : decode (encode i) = .ok i :=
  decode_of_decodeSlots_some (encode i) i (encode_opsel_lt i) (decodeSlots_encode i)

/-- A request of an operation that is not well formed decodes to no instruction: one that does is the instruction's own request,
and that is well formed. -/
theorem decode_of_not_wellFormed (r : Request) (hop : r.opsel.toNat < 14) (hwf : r.wellFormed = false) :
    decode r = .error .operand := by
  refine decode_of_decodeSlots_none r hop (Option.eq_none_iff_forall_ne_some.2 fun i hi => ?_)
  have hwf' : (encode i).wellFormed = true := Laws.EncodeWellFormed.byOperands i
  rw [← eq_encode_of_decodeSlots r i hi, hwf] at hwf'
  cases hwf'

end Sys2Proof

/-! The frame encoder's fixed and channel commands (R75, R80, R83 to R88) and the refusal of any other operands (R24). -/

namespace Sys2Proof.Machine

/-- R24: a request of one of the 14 operations that is not well formed is refused, and only RSP and the mark of the run change. -/
theorem refusesOtherOperands (opsel : BitVec 4) (hop : opsel.toNat < 14) : RefusesOtherOperands opsel := by
  rintro s r rest hconf hpending rfl hwf
  have hserve : serveRequest r { s with pending := rest } = answer { s with pending := rest } (.refused .operand) := by
    rw [serveRequest, decode_of_not_wellFormed r hop hwf]
    rfl
  rw [step_input s (.request r) rest hpending, serveInput, hserve, answer_configured { s with pending := rest } _ hconf,
    respond_refused]

/-- On a configured block an instruction with an `Ok` outcome puts it on RSP and changes nothing else. -/
theorem exec_of_outcome_ok (i : Instr) (s : State) (v : Result) (hconf : s.configured = true)
    (h : outcomeOf s.channelCount i = .ok v) : exec i s = .next { s with rsp := some (.ok v) } := by
  rw [exec_eq_answer, h, answer_configured s _ hconf, respond_of_not_refused s _ (isRefused_ok v)]

/-- On a configured block an instruction with a refusal for its outcome puts it on RSP and marks the run. -/
theorem exec_of_outcome_refused (i : Instr) (s : State) (e : RefusalReason) (hconf : s.configured = true)
    (h : outcomeOf s.channelCount i = .refused e) :
    exec i s = .next { s with rsp := some (.refused e), runRefused := true } := by
  rw [exec_eq_answer, h, answer_configured s _ hconf, respond_refused]

/-- R75 with a channel of one digit: the verb, the digit and `?`. -/
theorem encodeQuery_of_lt_ten (verb : Str) (ch : Nat) (h : ch < 10) :
    encodeQuery verb (some ch) = asBytes verb ++ [digitByte ch, 0x3F#8] := by
  rw [encodeQuery, channelText, dec_of_lt_ten ch h, txOf_eq_map, List.map_append, List.map_append, List.map_singleton,
    zeroExtend_digitChar ch h, List.append_assoc]
  rfl

/-- R83 to R86 are one form: the instruction's outcome is the query with its verb, behind the channel check. -/
def IsChannelQuery (verb : Str) (i : Instr) (ch : Nat) : Prop :=
  ∀ count : BitVec 2, outcomeOf count i = checkChannel count ch (.ok (.bytes (encodeQuery verb (some ch))))

theorem isChannelQuery_encVsetQ (ch : Nat) : IsChannelQuery verbVset (.encVsetQ ch) ch := fun _ => rfl
theorem isChannelQuery_encIsetQ (ch : Nat) : IsChannelQuery verbIset (.encIsetQ ch) ch := fun _ => rfl
theorem isChannelQuery_encVoutQ (ch : Nat) : IsChannelQuery verbVout (.encVoutQ ch) ch := fun _ => rfl
theorem isChannelQuery_encIoutQ (ch : Nat) : IsChannelQuery verbIout (.encIoutQ ch) ch := fun _ => rfl

/-- A channel query on a legal channel: a channel count has two bits, so the channel has one digit. -/
theorem exec_channelQuery_legal {verb : Str} {i : Instr} {ch : Nat} (hi : IsChannelQuery verb i ch) (s : State)
    (hconf : s.configured = true) (hch : 1 ≤ ch ∧ ch ≤ s.channelCount.toNat) :
    exec i s = .next { s with rsp := some (.ok (.bytes (asBytes verb ++ [digitByte ch, 0x3F#8]))) } := by
  have hten : ch < 10 := by omega
  refine exec_of_outcome_ok i s _ hconf ?_
  rw [hi, checkChannel_legal _ ch _ hch, encodeQuery_of_lt_ten verb ch hten]

/-- A channel query on any other channel (R79). -/
theorem exec_channelQuery_illegal {verb : Str} {i : Instr} {ch : Nat} (hi : IsChannelQuery verb i ch) (s : State)
    (hconf : s.configured = true) (hch : ¬ (1 ≤ ch ∧ ch ≤ s.channelCount.toNat)) :
    exec i s = .next { s with rsp := some (.refused .channel), runRefused := true } :=
  exec_of_outcome_refused i s .channel hconf ((hi s.channelCount).trans (checkChannel_illegal _ ch _ hch))

/-- Settles O15: the four queries are one form with four verbs, and each selector takes exactly a CH slot. -/
theorem channelQueriesAreVerbChannelAndQuestionMark : Obligations.ChannelQueriesAreVerbChannelAndQuestionMark := by
  refine ⟨fun s ch hconf => ⟨fun hone hcount => ?_, fun hch => ?_⟩, fun ch => ?_, refusesOtherOperands _ (by decide),
    refusesOtherOperands _ (by decide), refusesOtherOperands _ (by decide), refusesOtherOperands _ (by decide)⟩
  · exact ⟨exec_channelQuery_legal (isChannelQuery_encVsetQ ch) s hconf ⟨hone, hcount⟩,
      exec_channelQuery_legal (isChannelQuery_encIsetQ ch) s hconf ⟨hone, hcount⟩,
      exec_channelQuery_legal (isChannelQuery_encVoutQ ch) s hconf ⟨hone, hcount⟩,
      exec_channelQuery_legal (isChannelQuery_encIoutQ ch) s hconf ⟨hone, hcount⟩⟩
  · exact ⟨exec_channelQuery_illegal (isChannelQuery_encVsetQ ch) s hconf hch,
      exec_channelQuery_illegal (isChannelQuery_encIsetQ ch) s hconf hch,
      exec_channelQuery_illegal (isChannelQuery_encVoutQ ch) s hconf hch,
      exec_channelQuery_illegal (isChannelQuery_encIoutQ ch) s hconf hch⟩
  · exact ⟨decode_encode (.encVsetQ ch), decode_encode (.encIsetQ ch), decode_encode (.encVoutQ ch),
      decode_encode (.encIoutQ ch)⟩

/-- Settles O12: both queries are a verb and `?` on every configured block, and their selectors take no slot. -/
theorem identifyAndStatusQueriesAreTheirFixedBytes : Obligations.IdentifyAndStatusQueriesAreTheirFixedBytes :=
  ⟨fun s hconf => ⟨exec_of_outcome_ok .encIdn s _ hconf rfl, exec_of_outcome_ok .encStatusQ s _ hconf rfl⟩,
    decode_encode .encIdn, refusesOtherOperands _ (by decide), decode_encode .encStatusQ, refusesOtherOperands _ (by decide)⟩

/-- Settles O16: each FLAG gives `OUT` and its digit on every configured block, and the selector takes exactly a FLAG slot. -/
theorem outputDirectiveIsOutAndOneDigit : Obligations.OutputDirectiveIsOutAndOneDigit :=
  ⟨fun s hconf => ⟨exec_of_outcome_ok (.encOut 1#1) s _ hconf rfl, exec_of_outcome_ok (.encOut 0#1) s _ hconf rfl⟩,
    decode_encode (.encOut 1#1), decode_encode (.encOut 0#1), refusesOtherOperands _ (by decide)⟩

end Sys2Proof.Machine

/-! The decoder's two directions (R24, R55 to R57): the slot tables of R56 describe exactly the requests that the encoder writes. -/

namespace Sys2Proof

/-- Settles O8: every slot of an instruction's request reads back as the operand it was written from. -/
theorem decodeOfEncodeIsTheInstruction : Obligations.DecodeOfEncodeIsTheInstruction :=
  decode_encode

/-- A request decodes to an instruction only behind a selector that is not reserved, by its slots. -/
theorem decodeSlots_of_decode (r : Request) (i : Instr) (h : decode r = .ok i) :
    decodeSlots r.opsel.toNat r.slots = some i := by
  unfold decode at h
  split at h
  · cases h
  · split at h
    · next hslots => cases h; exact hslots
    · cases h

theorem eq_encode_of_decode (r : Request) (i : Instr) (h : decode r = .ok i) : r = encode i :=
  eq_encode_of_decodeSlots r i (decodeSlots_of_decode r i h)

/-- Settles O9: the slots that decode are the instruction's own. -/
theorem decodedRequestIsTheEncoding : Obligations.DecodedRequestIsTheEncoding :=
  eq_encode_of_decode

theorem admits_ch (o : Operand) : SlotName.ch.admits o = true ↔ ∃ n, o = natOperand n := by
  cases o <;> simp [SlotName.admits, natOperand, isNatNum_iff, numNat_eq_some]

theorem admits_val (o : Operand) : SlotName.val.admits o = true ↔ ∃ q, o = .num q := by
  cases o <;> simp [SlotName.admits]

theorem admits_flag (o : Operand) : SlotName.flag.admits o = true ↔ ∃ b : Bit, o = natOperand b.toNat := by
  cases o with
  | num q => exact (isNatNumBelow_iff 1 q).trans (by simp [natOperand, numBits_eq_some])
  | seq qs => simp [SlotName.admits, natOperand]

theorem admits_buf (o : Operand) : SlotName.buf.admits o = true ↔ ∃ bs : Bytes, o = bitsOperand bs := by
  cases o with
  | num q => simp [SlotName.admits, bitsOperand]
  | seq qs => exact (all_isNatNumBelow_iff 8 qs).trans (by simp [bitsOperand, seqBits_eq_some])

theorem admits_s (o : Operand) : SlotName.s.admits o = true ↔ ∃ s : Str, o = bitsOperand s := by
  cases o with
  | num q => simp [SlotName.admits, bitsOperand]
  | seq qs => exact (all_isNatNumBelow_iff 7 qs).trans (by simp [bitsOperand, seqBits_eq_some])

theorem admits_k (o : Operand) : SlotName.k.admits o = true ↔ ∃ n, o = natOperand n := by
  cases o <;> simp [SlotName.admits, natOperand, isNatNum_iff, numNat_eq_some]

theorem admits_sb (o : Operand) : SlotName.sb.admits o = true ↔ ∃ b : Byte, o = natOperand b.toNat := by
  cases o with
  | num q => exact (isNatNumBelow_iff 8 q).trans (by simp [natOperand, numBits_eq_some])
  | seq qs => simp [SlotName.admits, natOperand]

theorem admits_reads (o : Operand) : SlotName.reads.admits o = true ↔ ∃ qs, o = .seq qs := by
  cases o <;> simp [SlotName.admits]

/-- A slot that the operation does not take is absent. -/
theorem slotOk_of_not_mem (t : Slots) (taken : List SlotName) (n : SlotName) (hn : n ∉ taken) :
    t.slotOk taken n = true ↔ t.get n = none := by
  unfold Slots.slotOk
  split
  · next hget => simp [hn, hget]
  · next o hget => simp [hn, hget]

/-- A slot that the operation takes holds a value of its type. -/
theorem slotOk_of_mem (t : Slots) (taken : List SlotName) (n : SlotName) (hn : n ∈ taken) (hk : n ≠ .k) :
    t.slotOk taken n = true ↔ ∃ o, t.get n = some o ∧ n.admits o = true := by
  unfold Slots.slotOk
  split
  · next hget => simp [hn, hk, hget]
  · next o hget => simp [hn, hget]

/-- The K slot of an operation that takes one may also be absent (log 7). -/
theorem slotOk_k_of_mem (t : Slots) (taken : List SlotName) (hn : .k ∈ taken) :
    t.slotOk taken .k = true ↔ ∃ k : Option Nat, t.k = k.map natOperand := by
  unfold Slots.slotOk
  split
  · next hget => simpa [hn] using ⟨none, hget⟩
  · next o hget =>
    have hk : t.k = some o := hget
    simp [hn, hk, admits_k, Option.exists, eq_comm (a := o)]

/-- A request is the encoding of an instruction if its selector and its slots are. -/
theorem mk_eq_encode (opsel : BitVec 4) (t : Slots) (i : Instr) (hopsel : opsel.toNat = (encode i).opsel.toNat)
    (ht : t = (encode i).slots) : ∃ i, { opsel := opsel, slots := t } = encode i :=
  ⟨i, congr (congrArg Request.mk (BitVec.eq_of_toNat_eq hopsel)) ht⟩

/-- What a well-formed request holds, slot by slot, is what the encoder writes for some instruction. -/
theorem exists_eq_encode_of_wellFormed (r : Request) (h : r.wellFormed = true) : ∃ i, r = encode i := by
  obtain ⟨opsel, ch, val, flag, buf, s, k, sb, reads⟩ := r
  unfold Request.wellFormed at h
  split at h
  · cases h
  next taken htaken =>
  unfold slotsOf at htaken
  simp only [SlotName.all, List.all_cons, List.all_nil, Bool.and_true, Bool.and_eq_true] at h
  split at htaken <;> cases htaken <;> rename_i hop <;>
    simp only [List.mem_cons, List.not_mem_nil, reduceCtorEq, or_self, or_false, or_true, ne_eq, not_false_eq_true,
      ↓existsAndEq, and_true, slotOk_of_not_mem, slotOk_of_mem, slotOk_k_of_mem, Slots.get, admits_ch, admits_val,
      admits_flag, admits_buf, admits_s, admits_sb, admits_reads] at h
  case h_1 =>
    obtain ⟨rfl, rfl, rfl, rfl, rfl, rfl, rfl, rfl⟩ := h
    exact mk_eq_encode opsel _ .encIdn hop rfl
  case h_2 =>
    obtain ⟨⟨c, rfl⟩, ⟨q, rfl⟩, rfl, rfl, rfl, rfl, rfl, rfl⟩ := h
    exact mk_eq_encode opsel _ (.encVset c q) hop rfl
  case h_3 =>
    obtain ⟨⟨c, rfl⟩, ⟨q, rfl⟩, rfl, rfl, rfl, rfl, rfl, rfl⟩ := h
    exact mk_eq_encode opsel _ (.encIset c q) hop rfl
  case h_4 =>
    obtain ⟨⟨c, rfl⟩, rfl, rfl, rfl, rfl, rfl, rfl, rfl⟩ := h
    exact mk_eq_encode opsel _ (.encVsetQ c) hop rfl
  case h_5 =>
    obtain ⟨⟨c, rfl⟩, rfl, rfl, rfl, rfl, rfl, rfl, rfl⟩ := h
    exact mk_eq_encode opsel _ (.encIsetQ c) hop rfl
  case h_6 =>
    obtain ⟨⟨c, rfl⟩, rfl, rfl, rfl, rfl, rfl, rfl, rfl⟩ := h
    exact mk_eq_encode opsel _ (.encVoutQ c) hop rfl
  case h_7 =>
    obtain ⟨⟨c, rfl⟩, rfl, rfl, rfl, rfl, rfl, rfl, rfl⟩ := h
    exact mk_eq_encode opsel _ (.encIoutQ c) hop rfl
  case h_8 =>
    obtain ⟨rfl, rfl, ⟨b, rfl⟩, rfl, rfl, rfl, rfl, rfl⟩ := h
    exact mk_eq_encode opsel _ (.encOut b) hop rfl
  case h_9 =>
    obtain ⟨rfl, rfl, rfl, rfl, rfl, rfl, rfl, rfl⟩ := h
    exact mk_eq_encode opsel _ .encStatusQ hop rfl
  case h_10 =>
    obtain ⟨rfl, rfl, rfl, ⟨bs, rfl⟩, rfl, rfl, rfl, rfl⟩ := h
    exact mk_eq_encode opsel _ (.decText bs) hop rfl
  case h_11 =>
    obtain ⟨rfl, rfl, rfl, rfl, ⟨cs, rfl⟩, ⟨m, rfl⟩, rfl, rfl⟩ := h
    exact mk_eq_encode opsel _ (.decFloat cs m) hop rfl
  case h_12 =>
    obtain ⟨rfl, rfl, rfl, ⟨bs, rfl⟩, rfl, rfl, rfl, rfl⟩ := h
    exact mk_eq_encode opsel _ (.decStatusRaw bs) hop rfl
  case h_13 =>
    obtain ⟨rfl, rfl, rfl, rfl, rfl, rfl, ⟨b, rfl⟩, rfl⟩ := h
    exact mk_eq_encode opsel _ (.decStatusFields b) hop rfl
  case h_14 =>
    obtain ⟨rfl, rfl, rfl, rfl, rfl, rfl, ⟨b, rfl⟩, qs, rfl⟩ := h
    exact mk_eq_encode opsel _ (.decodeStatus b qs) hop rfl

/-- Settles O10: what decodes is an instruction's own request, which is well formed; and a well-formed request is one. -/
theorem decoderAcceptsExactlyWellFormedRequests : Obligations.DecoderAcceptsExactlyWellFormedRequests := by
  refine fun r => ⟨?_, fun hwf => ?_⟩
  · rintro ⟨i, hi⟩
    exact (eq_encode_of_decode r i hi) ▸ Laws.EncodeWellFormed.byOperands i
  · obtain ⟨i, rfl⟩ := exists_eq_encode_of_wellFormed r hwf
    exact ⟨i, decode_encode i⟩

/-- Settles O7: `refusesOtherOperands` holds for every selector below 14. -/
theorem wronglyShapedRequestsAreRefused : Obligations.WronglyShapedRequestsAreRefused :=
  Machine.refusesOtherOperands

/-- Settles O11: each of the seven words is the encoding of the instruction it stands for. -/
theorem requestWordsOfTheMapDecode : Obligations.RequestWordsOfTheMapDecode :=
  ⟨decode_encode .encIdn, decode_encode (.encVset 1 (mkRat 25 2)), decode_encode (.encOut 1#1),
    decode_encode (.decText [0x41#8, 0x00#8]), decode_encode (.decFloat [0x31#7] (some 5)),
    decode_encode (.decStatusRaw [0xFF#8]), decode_encode (.decodeStatus 0x41#8 [1, 2, 3, 4])⟩

end Sys2Proof

/-! One step of the block (R23 to R25, R57, R142, R160, R161): what each input does, said once. -/

namespace Sys2Proof.Machine

/-- What a request is answered on a configured block: the outcome of its instruction, or the refusal of one that decodes to
none. -/
def responseTo (count : BitVec 2) (r : Request) : Response :=
  match decode r with
  | .ok i => outcomeOf count i
  | .error e => .refused (rejectReason e)

theorem responseTo_of_decode {r : Request} {i : Instr} (count : BitVec 2) (h : decode r = .ok i) :
    responseTo count r = outcomeOf count i := by
  rw [responseTo, h]

theorem responseTo_of_reject {r : Request} {e : Reject} (count : BitVec 2) (h : decode r = .error e) :
    responseTo count r = .refused (rejectReason e) := by
  rw [responseTo, h]

/-- The state after an accepted RESET: the count and `configured` set, RSP empty (R160, R161, log 4). -/
def State.accept (s : State) (n : Nat) : State :=
  { s with channelCount := BitVec.ofNat 2 n, configured := true, rsp := none }

/-- The state in which the input at the ports has been taken. -/
def State.taken (s : State) (rest : List Input) : State := { s with pending := rest }

@[simp] theorem taken_channelCount (s : State) (rest : List Input) : (s.taken rest).channelCount = s.channelCount := rfl
@[simp] theorem taken_configured (s : State) (rest : List Input) : (s.taken rest).configured = s.configured := rfl
@[simp] theorem taken_pending (s : State) (rest : List Input) : (s.taken rest).pending = rest := rfl
@[simp] theorem taken_rsp (s : State) (rest : List Input) : (s.taken rest).rsp = s.rsp := rfl
@[simp] theorem taken_runRefused (s : State) (rest : List Input) : (s.taken rest).runRefused = s.runRefused := rfl

@[simp] theorem accept_channelCount (s : State) (n : Nat) : (s.accept n).channelCount = BitVec.ofNat 2 n := rfl
@[simp] theorem accept_configured (s : State) (n : Nat) : (s.accept n).configured = true := rfl
@[simp] theorem accept_pending (s : State) (n : Nat) : (s.accept n).pending = s.pending := rfl
@[simp] theorem accept_rsp (s : State) (n : Nat) : (s.accept n).rsp = none := rfl
@[simp] theorem accept_runRefused (s : State) (n : Nat) : (s.accept n).runRefused = s.runRefused := rfl

theorem step_accepted_reset {s : State} {n : Nat} {rest : List Input} (hpending : s.pending = .reset n :: rest)
    (hn : n = 1 ∨ n = 2) : step s = .next ((s.taken rest).accept n) := by
  rw [step_input s _ rest hpending, serveInput, takeReset, if_pos (by simpa using hn)]
  rfl

theorem step_refused_reset {s : State} {n : Nat} {rest : List Input} (hpending : s.pending = .reset n :: rest)
    (hn : ¬ (n = 1 ∨ n = 2)) : step s = .next ((s.taken rest).respond (.refused .config)) := by
  rw [step_input s _ rest hpending, serveInput, takeReset, if_neg (by simpa using hn)]
  rfl

theorem step_request {s : State} {r : Request} {rest : List Input} (hpending : s.pending = .request r :: rest) :
    step s = answer (s.taken rest) (responseTo s.channelCount r) := by
  rw [step_input s _ rest hpending]
  exact serveRequest_eq_answer r (s.taken rest)

/-- A step that gives an outcome is one of a refused reset, of a request on an unconfigured block, or of a request on a configured
one. -/
inductive Answers (s : State) : Input → Response → Prop where
  | refusedReset (n : Nat) (hn : ¬ (n = 1 ∨ n = 2)) : Answers s (.reset n) (.refused .config)
  | unconfigured (r : Request) (hconf : s.configured = false) : Answers s (.request r) (.refused .config)
  | configured (r : Request) (hconf : s.configured = true) : Answers s (.request r) (responseTo s.channelCount r)

theorem step_of_answers {s : State} {input : Input} {rest : List Input} {r : Response} (hpending : s.pending = input :: rest)
    (h : Answers s input r) : step s = .next ((s.taken rest).respond r) := by
  cases h with
  | refusedReset n hn => exact step_refused_reset hpending hn
  | unconfigured r hconf => rw [step_request hpending, answer_unconfigured (s.taken rest) _ hconf]
  | configured r hconf => rw [step_request hpending, answer_configured (s.taken rest) _ hconf]

/-- All that a step can do: nothing, where nothing is presented; else it takes the input, and either accepts a reset or answers. -/
theorem step_cases (s : State) :
    (s.pending = [] ∧ step s = .next s) ∨
    (∃ n rest, s.pending = .reset n :: rest ∧ (n = 1 ∨ n = 2) ∧ step s = .next ((s.taken rest).accept n)) ∨
    (∃ input rest r, s.pending = input :: rest ∧ Answers s input r ∧ step s = .next ((s.taken rest).respond r)) := by
  rcases hpending : s.pending with - | ⟨n | r, rest⟩
  · exact .inl ⟨rfl, step_idle s hpending⟩
  · by_cases hn : n = 1 ∨ n = 2
    · exact .inr (.inl ⟨n, rest, rfl, hn, step_accepted_reset hpending hn⟩)
    · exact .inr (.inr ⟨_, rest, _, rfl, .refusedReset n hn, step_refused_reset hpending hn⟩)
  · cases hconf : s.configured
    · exact .inr (.inr ⟨_, rest, _, rfl, .unconfigured r hconf, step_of_answers hpending (.unconfigured r hconf)⟩)
    · exact .inr (.inr ⟨_, rest, _, rfl, .configured r hconf, step_of_answers hpending (.configured r hconf)⟩)

/-- What an unconfigured block answers does not depend on the count. -/
theorem Answers.of_unconfigured {s : State} {input : Input} {r : Response} (h : Answers s input r)
    (hconf : s.configured = false) (c : BitVec 2) : Answers { s with channelCount := c } input r := by
  cases h with
  | refusedReset n hn => exact .refusedReset n hn
  | unconfigured r h => exact .unconfigured r h
  | configured r h => rw [hconf] at h; cases h

/-- Settles O1: with RSP empty and no mark before it, an accepted reset leaves exactly `State.afterReset`. -/
theorem resetLeavesTheStateTheSpecGives : Obligations.ResetLeavesTheStateTheSpecGives := by
  refine ⟨fun n hn => ⟨?_, rfl, rfl⟩, rfl, rfl⟩
  rcases hn with rfl | rfl
  · exact step_accepted_reset rfl (.inl rfl)
  · exact step_accepted_reset rfl (.inr rfl)

/-- Settles O2, by the step of an accepted and of a refused reset. -/
theorem resetAcceptsExactlyOneAndTwo : Obligations.ResetAcceptsExactlyOneAndTwo := by
  refine fun s n rest hpending => ⟨step_accepted_reset hpending, fun hn => ?_⟩
  rw [step_refused_reset hpending hn, respond_refused]
  rfl

/-- Settles O3: every request and every instruction ends in `answer`, which looks at `configured` first. -/
theorem unconfiguredBlockRefusesEveryRequest : Obligations.UnconfiguredBlockRefusesEveryRequest := by
  refine fun s hconf => ⟨fun r rest hpending => ?_, fun i => ?_⟩
  · rw [step_request hpending, answer_unconfigured (s.taken rest) _ hconf, respond_refused]
    rfl
  · rw [exec_eq_answer, answer_unconfigured s _ hconf, respond_refused]

/-- Settles O4: an accepted reset overwrites the count, and every other step of an unconfigured block keeps it and answers
`Refused(CONFIG)` whatever it is. -/
theorem channelCountIsNeverReadBeforeReset : Obligations.ChannelCountIsNeverReadBeforeReset := by
  intro s t c hconf hstep
  rcases step_cases s with ⟨hpending, h⟩ | ⟨n, rest, hpending, hn, h⟩ | ⟨input, rest, r, hpending, hanswers, h⟩ <;>
    rw [h] at hstep <;> cases hstep
  · exact ⟨_, step_idle _ hpending, rfl, by simp [hconf], fun _ => ⟨rfl, rfl⟩⟩
  · exact ⟨_, step_accepted_reset hpending hn, rfl, fun _ => rfl, nofun⟩
  · exact ⟨_, step_of_answers hpending (hanswers.of_unconfigured hconf c), rfl, by simp [hconf], fun _ => ⟨rfl, rfl⟩⟩

/-- Settles O5: a request's step is the meaning of what it decodes to. -/
theorem stepRunsTheDecodedRequest : Obligations.StepRunsTheDecodedRequest := by
  refine fun s => ⟨fun r rest i hpending hdecode => ?_, step_idle s⟩
  rw [step_request hpending, responseTo_of_decode _ hdecode, exec_eq_answer]
  rfl

theorem decode_of_reserved (r : Request) (h : 14 ≤ r.opsel.toNat) : decode r = .error .reservedOp := by
  rw [decode, if_pos h]

/-- Settles O6: the decoder looks at the selector before the slots. -/
theorem reservedSelectorsAreRefusedWhateverTheirOperands :
    Obligations.ReservedSelectorsAreRefusedWhateverTheirOperands := by
  intro s r rest hconf hpending hopsel
  have hreserved : 14 ≤ r.opsel.toNat := by rcases hopsel with h | h <;> simp [h]
  rw [step_request hpending, responseTo_of_reject _ (decode_of_reserved r hreserved),
    answer_configured (s.taken rest) _ hconf, rejectReason, respond_refused]
  rfl

/-- Settles O39: every input but an accepted reset is answered, and an accepted reset empties RSP. -/
theorem everyInputIsAnswered : Obligations.EveryInputIsAnswered := by
  intro s
  rcases step_cases s with
    ⟨hpending, hstep⟩ | ⟨n, rest, hpending, hn, hstep⟩ | ⟨input, rest, r, hpending, hanswer, hstep⟩
  all_goals
    refine ⟨_, hstep, fun i rest' hi => ?_⟩
    rw [hpending] at hi
    cases hi
  · exact ⟨rfl, by simpa using hn⟩
  · refine ⟨rfl, ?_⟩
    cases hanswer with
    | refusedReset n hn => simpa using hn
    | unconfigured | configured => simp

/-- Settles O41: an answer leaves CFG and `configured` alone, so a step that changes either accepted a reset. -/
theorem onlyAnAcceptedResetConfigures : Obligations.OnlyAnAcceptedResetConfigures := by
  intro s t hstep hchange
  rcases step_cases s with ⟨-, h⟩ | ⟨n, rest, hpending, hn, h⟩ | ⟨input, rest, r, -, -, h⟩ <;>
    rw [h] at hstep <;> cases hstep
  · simp at hchange
  · rcases hn with rfl | rfl
    · exact ⟨rest, .inl hpending, rfl, .inl rfl⟩
    · exact ⟨rest, .inr hpending, rfl, .inr rfl⟩
  · simp at hchange

end Sys2Proof.Machine

/-! One instruction (R20, R21, R48, R49, R140, R141): its outcome is a function of CFG and `configured`, it writes nothing else, and
its code is one of the instruction's row. -/

namespace Sys2Proof.Machine

/-- What an instruction is answered on a block with this CFG (R21): `Refused(CONFIG)` before the first accepted reset. -/
def outcomeOn (configured : Bool) (count : BitVec 2) (i : Instr) : Response :=
  if configured then outcomeOf count i else .refused .config

theorem exec_eq_respond (i : Instr) (s : State) :
    exec i s = .next (s.respond (outcomeOn s.configured s.channelCount i)) :=
  exec_eq_answer i s

/-- The next state of an instruction: its outcome on RSP, and nothing else but the mark. -/
theorem eq_respond_of_exec {i : Instr} {s t : State} (h : exec i s = .next t) :
    t = s.respond (outcomeOn s.configured s.channelCount i) := by
  rw [exec_eq_respond] at h
  cases h
  rfl

theorem isRefused_iff (r : Response) : r.isRefused = true ↔ ∃ why, r = .refused why := by
  cases r <;> simp

/-- Settles O40: what an instruction leaves is the state before it with an outcome on RSP. -/
theorem noOperationWritesTheBlock : Obligations.NoOperationWritesTheBlock := by
  intro i s t h
  obtain rfl := eq_respond_of_exec h
  refine ⟨rfl, rfl, rfl, _, rfl, ?_⟩
  rw [respond_runRefused, Bool.or_eq_true, isRefused_iff]

/-- Answering a second time with the same outcome changes nothing. -/
theorem respond_respond_self (s : State) (r : Response) : (s.respond r).respond r = s.respond r := by
  simp [State.respond]

/-- Settles O42: the outcome looks at CFG and `configured` only, and an answer leaves both as they are. -/
theorem outcomeIsAFunctionOfRequestAndConfiguration : Obligations.OutcomeIsAFunctionOfRequestAndConfiguration := by
  intro i s s' t t' hconf hcount h h'
  obtain rfl := eq_respond_of_exec h
  obtain rfl := eq_respond_of_exec h'
  refine ⟨by rw [respond_rsp, respond_rsp, hconf, hcount], ?_⟩
  rw [exec_eq_respond, respond_configured, respond_channelCount, respond_respond_self]

/-- Settles O43: neither instruction changes what the other's outcome looks at, and the marks of both are joined. -/
theorem orderOfOperationsChangesNoOutcome : Obligations.OrderOfOperationsChangesNoOutcome := by
  intro i j s si sj sij sji hi hj hij hji
  obtain rfl := eq_respond_of_exec hi
  obtain rfl := eq_respond_of_exec hj
  obtain rfl := eq_respond_of_exec hij
  obtain rfl := eq_respond_of_exec hji
  exact ⟨rfl, rfl, Bool.or_right_comm _ _ _⟩

/-! ### The outcomes of each operation -/

/-- All that the channel check can do. -/
theorem checkChannel_cases (count : BitVec 2) (ch : Nat) (r : Response) :
    checkChannel count ch r = r ∨ checkChannel count ch r = .refused .channel := by
  by_cases h : 1 ≤ ch ∧ ch ≤ count.toNat
  · exact .inl (checkChannel_legal count ch r h)
  · exact .inr (checkChannel_illegal count ch r h)

/-- All that DEC_TEXT can give: the index of a high byte, or the text of a kept part without one. -/
theorem respDecText_cases (buf : Bytes) :
    (∃ n, firstHigh (keptBytes buf) 0 = some n ∧ respDecText buf = .err (.decodeError n)) ∨
    (firstHigh (keptBytes buf) 0 = none ∧ respDecText buf = .ok (.text ((keptBytes buf).map fun b => b.truncate 7))) := by
  rcases h : firstHigh (keptBytes buf) 0 with - | n
  · exact .inr ⟨rfl, by rw [respDecText, h]⟩
  · exact .inl ⟨n, rfl, by rw [respDecText, h]⟩

/-- All that DEC_FLOAT can give, by what its recognisers say of the truncated text. -/
theorem respDecFloat_cases (s : Str) (k : Option Nat) :
    (∃ v, parseNumeral (truncateTo s k) = some v ∧ respDecFloat s k = .ok (.rat v)) ∨
    (parseNumeral (truncateTo s k) = none ∧ isLenient (truncateTo s k) = true ∧ respDecFloat s k = .refused .numericForm) ∨
    (parseNumeral (truncateTo s k) = none ∧ isLenient (truncateTo s k) = false ∧ respDecFloat s k = .err .parseError) := by
  rcases h : parseNumeral (truncateTo s k) with - | v
  · rcases hl : isLenient (truncateTo s k) with - | -
    · exact .inr (.inr ⟨rfl, rfl, by simp [respDecFloat, h, hl]⟩)
    · exact .inr (.inl ⟨rfl, rfl, by simp [respDecFloat, h, hl]⟩)
  · exact .inl ⟨v, rfl, by rw [respDecFloat, h]⟩

/-- All that DEC_STATUS_RAW can give (R120). -/
theorem respDecStatusRaw_cases (buf : Bytes) :
    (∃ b, buf = [b] ∧ respDecStatusRaw buf = .ok (.byte b)) ∨
    (buf.length ≠ 1 ∧ respDecStatusRaw buf = .err (.transient buf.length)) := by
  rcases buf with - | ⟨b, - | ⟨b', bs⟩⟩
  · exact .inr ⟨by simp, rfl⟩
  · exact .inl ⟨b, rfl, rfl⟩
  · exact .inr ⟨by simp, rfl⟩

/-- All that DECODE_STATUS can give (R130). -/
theorem respDecodeStatus_cases (count : BitVec 2) (sb : Byte) (reads : List Rat) :
    (reads.length = 4 * count.toNat ∧
      respDecodeStatus count sb reads = .ok (.status (deviceStatus (statusFields count sb) reads))) ∨
    (reads.length ≠ 4 * count.toNat ∧ respDecodeStatus count sb reads = .refused .arity) := by
  by_cases h : reads.length = 4 * count.toNat
  · exact .inl ⟨h, by rw [respDecodeStatus, if_neg (not_not.2 h)]⟩
  · exact .inr ⟨h, by rw [respDecodeStatus, if_pos h]⟩

/-! ### Outcome codes -/

theorem code_err_bounds (e : ErrKind) : 1 ≤ (Response.err e).code.toNat ∧ (Response.err e).code.toNat ≤ 4 := by
  cases e <;> simp [Response.code]

theorem code_refused_bounds (why : RefusalReason) :
    0x10 ≤ (Response.refused why).code.toNat ∧ (Response.refused why).code.toNat ≤ 0x16 := by
  cases why <;> decide

theorem code_refused_injective (a b : RefusalReason) (h : (Response.refused a).code = (Response.refused b).code) : a = b := by
  cases a <;> cases b <;> simp [Response.code] at h ⊢

/-- Settles O45: the three groups have codes of their own, and within a group each outcome has its own. -/
theorem outcomeCodesTellTheOutcomesApart : Obligations.OutcomeCodesTellTheOutcomesApart := by
  refine ⟨fun r => ?_, fun r => ?_, fun r => ?_, code_refused_injective⟩
  · rcases r with v | e | why
    · simp [Response.code]
    · cases e <;> simp [Response.code]
    · cases why <;> simp [Response.code]
  · rcases r with v | e | why
    · simp [Response.code]
    · have := code_err_bounds e
      simp only [reduceCtorEq, exists_false, iff_false]
      omega
    · simpa using code_refused_bounds why
  · rcases r with v | e | why
    · simp [Response.code]
    · simpa using code_err_bounds e
    · have := code_refused_bounds why
      simp only [reduceCtorEq, exists_false, iff_false]
      omega

theorem code_checkChannel_mem (count : BitVec 2) (ch : Nat) (r : Response) (codes : List Byte) (hr : r.code ∈ codes)
    (hchannel : 0x12#8 ∈ codes) : (checkChannel count ch r).code ∈ codes := by
  rcases checkChannel_cases count ch r with h | h <;> rw [h]
  · exact hr
  · exact hchannel

theorem code_encodeDirective_mem (verb : Str) (ch : Nat) (x : Rat) (p max : Nat) :
    (encodeDirective verb ch x p max).code ∈ [0x00#8, 0x12#8, 0x13#8] := by
  rcases encodeDirective_cases verb ch x p max with ⟨-, -, h⟩ | ⟨-, h⟩ <;> rw [h] <;> simp [Response.code]

/-- The table of R141, row by row. -/
theorem code_outcomeOf_mem (count : BitVec 2) (i : Instr) : (outcomeOf count i).code ∈ outcomesOf i := by
  cases i with
  | encIdn | encOut | encStatusQ | decStatusFields => exact List.mem_singleton.2 rfl
  | encVset ch x | encIset ch x =>
    exact code_checkChannel_mem count ch _ _ (code_encodeDirective_mem _ ch x _ _) (by simp [outcomesOf])
  | encVsetQ ch | encIsetQ ch | encVoutQ ch | encIoutQ ch =>
    exact code_checkChannel_mem count ch _ _ List.mem_cons_self (by simp [outcomesOf])
  | decText buf =>
    rcases respDecText_cases buf with ⟨n, -, h⟩ | ⟨-, h⟩ <;> simp [outcomeOf, h, Response.code, outcomesOf]
  | decFloat t k =>
    rcases respDecFloat_cases t k with ⟨v, -, h⟩ | ⟨-, -, h⟩ | ⟨-, -, h⟩ <;>
      simp [outcomeOf, h, Response.code, outcomesOf]
  | decStatusRaw buf =>
    rcases respDecStatusRaw_cases buf with ⟨b, -, h⟩ | ⟨-, h⟩ <;> simp [outcomeOf, h, Response.code, outcomesOf]
  | decodeStatus sb reads =>
    rcases respDecodeStatus_cases count sb reads with ⟨-, h⟩ | ⟨-, h⟩ <;> simp [outcomeOf, h, Response.code, outcomesOf]

/-- Settles O44: what stands on RSP after an instruction is its outcome, whose code is in its row. -/
theorem outcomesStayInTheirRow : Obligations.OutcomesStayInTheirRow := by
  intro i s t r hconf h hrsp
  obtain rfl := eq_respond_of_exec h
  simp only [respond_rsp, outcomeOn, hconf, if_true, Option.some.injEq] at hrsp
  exact hrsp ▸ code_outcomeOf_mem s.channelCount i

end Sys2Proof.Machine

/-! The text the encoder writes (R43, R66, R68, R69): the shortest numeral, the nearest integer, and TX byte by byte. -/

namespace Sys2Proof.Machine

theorem dec_ne_nil (n : Nat) : dec n ≠ [] := by
  rcases lt_or_ge n 10 with h | h
  · simp [dec_of_lt_ten n h]
  · simp [dec_of_ten_le n h]

theorem isDigits_dec (n : Nat) : IsDigits (dec n) := ⟨dec_ne_nil n, isDigit_of_mem_dec n⟩

theorem digitsVal_singleton (n : Nat) (h : n < 10) : digitsVal [digitChar n] = n := by
  simp [digitsVal, digitVal_digitChar n h]

theorem digitsVal_dec (n : Nat) : digitsVal (dec n) = n := by
  induction n using Nat.strong_induction_on with
  | h n ih =>
    rcases lt_or_ge n 10 with hn | hn
    · rw [dec_of_lt_ten n hn, digitsVal_singleton n hn]
    · rw [dec_of_ten_le n hn, digitsVal_append, ih (n / 10) (by omega), digitsVal_singleton _ (by omega),
        List.length_singleton, pow_one]
      omega

theorem digitChar_ne_zero (n : Nat) (hn : n < 10) (h0 : n ≠ 0) : digitChar n ≠ digitChar 0 := by
  intro h
  have h := congrArg digitVal h
  rw [digitVal_digitChar n hn, digitVal_digitChar 0 (by decide)] at h
  exact h0 h

theorem dec_head?_ne_zero (n : Nat) (h0 : n ≠ 0) : (dec n).head? ≠ some (digitChar 0) := by
  induction n using Nat.strong_induction_on with
  | h n ih =>
    rcases lt_or_ge n 10 with hn | hn
    · simpa [dec_of_lt_ten n hn] using digitChar_ne_zero n hn h0
    · rw [dec_of_ten_le n hn, List.head?_append_of_ne_nil _ (dec_ne_nil _)]
      exact ih (n / 10) (by omega) (by omega)

/-- Settles O19: by its last digit, down to one digit. -/
theorem numeralIsTheShortestOne : Obligations.NumeralIsTheShortestOne :=
  fun n => ⟨isDigits_dec n, digitsVal_dec n, dec_head?_ne_zero n, fun h => h ▸ dec_of_lt_ten 0 (by decide)⟩

/-- `IsNearestEven` without the absolute value. -/
theorem isNearestEven_iff (x : Rat) (n : Nat) :
    IsNearestEven x n ↔ (2 * (x - n) ≤ 1 ∧ -1 ≤ 2 * (x - n)) ∧ (2 * (x - n) = 1 ∨ 2 * (x - n) = -1 → n % 2 = 0) := by
  have h : 2 * |x - n| = |2 * (x - n)| := by rw [abs_mul, abs_two]
  rw [IsNearestEven, h, abs_le, abs_eq zero_le_one, and_comm (a := -1 ≤ _)]

/-- The rounding is within a half, and even at a half. -/
theorem isNearestEven_rne (x : Rat) (hx : 0 ≤ x) : IsNearestEven x (rne x) := by
  have hden : (0 : Rat) < x.den := by exact_mod_cast x.den_pos
  have hnum : ((x.num.toNat : Nat) : Rat) = x * x.den := by
    rw [Rat.mul_den_eq_num]
    exact_mod_cast Int.toNat_of_nonneg (Rat.num_nonneg.2 hx)
  have hspec := divNearestEven_spec x.num.toNat x.den x.den_pos
  rw [show divNearestEven x.num.toNat x.den = rne x from rfl] at hspec
  obtain ⟨habove, hbelow, htie⟩ := hspec
  rw [← @Nat.cast_le Rat] at habove hbelow
  rw [← @Nat.cast_inj Rat, ← @Nat.cast_inj Rat] at htie
  push_cast [hnum] at habove hbelow htie
  refine (isNearestEven_iff x _).2 ⟨⟨?_, ?_⟩, fun h => htie ?_⟩
  · exact le_of_mul_le_mul_right (by linarith) hden
  · exact le_of_mul_le_mul_right (by linarith) hden
  · rcases h with h | h
    · exact .inl (by linear_combination (x.den : Rat) * h)
    · exact .inr (by linear_combination (-(x.den : Rat)) * h)

/-- Two nearest integers that differ are a half away from `x`, and not both of them are even. -/
theorem isNearestEven_unique (x : Rat) (n m : Nat) (hn : IsNearestEven x n) (hm : IsNearestEven x m) : n = m := by
  wlog hlt : n < m generalizing n m
  · rcases Nat.lt_or_eq_of_le (not_lt.1 hlt) with h | h
    · exact (this m n hm hn h).symm
    · exact h.symm
  obtain ⟨⟨hn, -⟩, hneven⟩ := (isNearestEven_iff x n).1 hn
  obtain ⟨⟨-, hm⟩, hmeven⟩ := (isNearestEven_iff x m).1 hm
  obtain rfl : m = n + 1 := by
    have hle : (m : Rat) ≤ (n + 1 : Nat) := by push_cast; linarith
    exact le_antisymm (Nat.cast_le.1 hle) hlt
  push_cast at hm hmeven
  have hhalf : 2 * (x - n) = 1 := by linarith
  have := hneven (.inl hhalf)
  have := hmeven (.inr (by linarith))
  omega

/-- Settles O20: the rounding is a nearest integer, and there is only one. -/
theorem roundingIsToNearestEven : Obligations.RoundingIsToNearestEven :=
  fun x n hx => ⟨fun h => h ▸ isNearestEven_rne x hx, isNearestEven_unique x _ n (isNearestEven_rne x hx)⟩

/-- Settles O21: TX is the text with each character as a byte. -/
theorem transmitBufferHoldsTheTextByteByByte : Obligations.TransmitBufferHoldsTheTextByteByByte :=
  fun s => ⟨txOf_length s, fun i => by rw [txOf_eq_map, List.getElem?_map]⟩

end Sys2Proof.Machine

/-! The set directives (R69, R76, R77, R79, R81, R82): both are one form with a verb, a number of decimals and a maximum. -/

namespace Sys2Proof.Machine

theorem asBytes_append (s t : Str) : asBytes (s ++ t) = asBytes s ++ asBytes t := List.map_append

theorem asBytes_digitChar (d : Nat) (h : d < 10) : asBytes [digitChar d] = [digitByte d] :=
  congrArg (fun b => [b]) (zeroExtend_digitChar d h)

theorem txOf_eq_asBytes (s : Str) : txOf s = asBytes s := txOf_eq_map s

/-- R76 with a channel of one digit: the verb, the digit, `:` and the value's text. -/
theorem txOf_directive (verb t : Str) (ch : Nat) (h : ch < 10) :
    txOf (verb ++ dec ch ++ [chColon] ++ t) = asBytes verb ++ [digitByte ch, 0x3A#8] ++ asBytes t := by
  rw [txOf_eq_asBytes, dec_of_lt_ten ch h, asBytes_append, asBytes_append, asBytes_append, asBytes_digitChar ch h,
    List.append_assoc (asBytes verb)]
  rfl

/-- The rounding of the scaled value is the nearest integer of units. -/
theorem rne_scale10 (x : Rat) (p n : Nat) (hx : 0 ≤ x) : rne (scale10 x p) = n ↔ IsNearestEven (x * 10 ^ p) n := by
  rw [scale10_eq]
  exact roundingIsToNearestEven _ n (by positivity)

/-- R81 and R82 are one form: the instruction's outcome is the directive with its verb, behind the channel check. -/
def IsSetDirective (verb : Str) (p max : Nat) (i : Instr) (ch : Nat) (x : Rat) : Prop :=
  ∀ count : BitVec 2, outcomeOf count i = checkChannel count ch (encodeDirective verb ch x p max)

theorem isSetDirective_encVset (ch : Nat) (x : Rat) : IsSetDirective verbVset 2 9999 (.encVset ch x) ch x := fun _ => rfl
theorem isSetDirective_encIset (ch : Nat) (x : Rat) : IsSetDirective verbIset 3 9999 (.encIset ch x) ch x := fun _ => rfl

section
variable {verb : Str} {p max : Nat} {i : Instr} {ch : Nat} {x : Rat}

/-- An admitted value on a legal channel. -/
theorem exec_setDirective_admitted (hi : IsSetDirective verb p max i ch x) (s : State) (n : Nat) (hconf : s.configured = true)
    (hch : 1 ≤ ch ∧ ch ≤ s.channelCount.toNat) (hx : 0 ≤ x) (hn : IsNearestEven (x * 10 ^ p) n) (hmax : n ≤ max) :
    exec i s = .next
      { s with rsp := some (.ok (.bytes (asBytes verb ++ [digitByte ch, 0x3A#8] ++ asBytes (decimalText n p)))) } := by
  obtain rfl := (rne_scale10 x p n hx).2 hn
  refine exec_of_outcome_ok i s _ hconf ?_
  rw [hi, checkChannel_legal _ ch _ hch, encodeDirective, fixed_admitted x p max hx hmax, ← txOf_directive _ _ ch (by omega)]

/-- A value whose units are above the maximum (R69). -/
theorem exec_setDirective_above (hi : IsSetDirective verb p max i ch x) (s : State) (n : Nat) (hconf : s.configured = true)
    (hch : 1 ≤ ch ∧ ch ≤ s.channelCount.toNat) (hx : 0 ≤ x) (hn : IsNearestEven (x * 10 ^ p) n) (hmax : max < n) :
    exec i s = .next { s with rsp := some (.refused .range), runRefused := true } := by
  obtain rfl := (rne_scale10 x p n hx).2 hn
  refine exec_of_outcome_refused i s .range hconf ?_
  rw [hi, checkChannel_legal _ ch _ hch, encodeDirective, fixed_above x p max hx hmax]

/-- A negative value (R69). -/
theorem exec_setDirective_negative (hi : IsSetDirective verb p max i ch x) (s : State) (hconf : s.configured = true)
    (hch : 1 ≤ ch ∧ ch ≤ s.channelCount.toNat) (hx : x < 0) :
    exec i s = .next { s with rsp := some (.refused .range), runRefused := true } := by
  refine exec_of_outcome_refused i s .range hconf ?_
  rw [hi, checkChannel_legal _ ch _ hch, encodeDirective, fixed_negative x p max hx]

/-- Any other channel, whatever the value (R77, R79). -/
theorem exec_setDirective_illegal (hi : IsSetDirective verb p max i ch x) (s : State) (hconf : s.configured = true)
    (hch : ¬ (1 ≤ ch ∧ ch ≤ s.channelCount.toNat)) :
    exec i s = .next { s with rsp := some (.refused .channel), runRefused := true } :=
  exec_of_outcome_refused i s .channel hconf ((hi s.channelCount).trans (checkChannel_illegal _ ch _ hch))

end

/-- The bytes of a fixed-decimal text: those of its integer part, the dot, those of its decimals. -/
theorem asBytes_decimalText (n p : Nat) :
    asBytes (decimalText n p) = asBytes (dec (n / 10 ^ p)) ++ 0x2E#8 :: asBytes (pad (n % 10 ^ p) p) := by
  rw [decimalText, asBytes_append, asBytes_append, List.append_assoc]
  rfl

/-- The bytes of padded decimals: the last digit behind those of the tens. -/
theorem asBytes_pad_succ (n p : Nat) : asBytes (pad n (p + 1)) = asBytes (pad (n / 10) p) ++ [digitByte (n % 10)] := by
  rw [pad, asBytes_append, asBytes_digitChar _ (by omega)]

theorem asBytes_dec_of_lt_ten (n : Nat) (h : n < 10) : asBytes (dec n) = [digitByte n] := by
  rw [dec_of_lt_ten n h, asBytes_digitChar n h]

theorem asBytes_dec_of_lt_hundred (n : Nat) (h : 10 ≤ n) (h' : n < 100) :
    asBytes (dec n) = [digitByte (n / 10), digitByte (n % 10)] := by
  rw [dec_of_ten_le n h, asBytes_append, asBytes_dec_of_lt_ten _ (by omega), asBytes_digitChar _ (by omega)]
  rfl

/-- Two decimals behind one or two integer digits. -/
theorem asBytes_decimalText_two (n : Nat) (h : n ≤ 9999) : asBytes (decimalText n 2) = voltageText n := by
  have hpad : asBytes (pad (n % 10 ^ 2) 2) = [digitByte (n / 10 % 10), digitByte (n % 10)] := by
    rw [asBytes_pad_succ, asBytes_pad_succ, show n % 10 ^ 2 / 10 % 10 = n / 10 % 10 by omega,
      show n % 10 ^ 2 % 10 = n % 10 by omega]
    rfl
  rw [asBytes_decimalText, hpad, voltageText]
  split
  · rw [asBytes_dec_of_lt_ten _ (by omega)]
    rfl
  · rw [asBytes_dec_of_lt_hundred _ (by omega) (by omega), show n / 10 ^ 2 / 10 = n / 1000 by omega]
    rfl

/-- Three decimals behind one integer digit. -/
theorem asBytes_decimalText_three (n : Nat) (h : n ≤ 9999) : asBytes (decimalText n 3) = currentText n := by
  have hpad : asBytes (pad (n % 10 ^ 3) 3) = [digitByte (n / 100 % 10), digitByte (n / 10 % 10), digitByte (n % 10)] := by
    rw [asBytes_pad_succ, asBytes_pad_succ, asBytes_pad_succ, show n % 10 ^ 3 / 10 / 10 % 10 = n / 100 % 10 by omega,
      show n % 10 ^ 3 / 10 % 10 = n / 10 % 10 by omega, show n % 10 ^ 3 % 10 = n % 10 by omega]
    rfl
  rw [asBytes_decimalText, hpad, asBytes_dec_of_lt_ten _ (by omega)]
  rfl

/-- Settles O13: the set directive with `VSET`, two decimals and 9999 units at most. -/
theorem vsetDirectiveIsVerbChannelAndTwoDecimals : Obligations.VsetDirectiveIsVerbChannelAndTwoDecimals := by
  refine ⟨fun s ch x n hconf => ?_, refusesOtherOperands _ (by decide)⟩
  have hset := isSetDirective_encVset ch x
  refine ⟨fun hone hcount hx hn => ?_, fun hone hcount => exec_setDirective_negative hset s hconf ⟨hone, hcount⟩,
    exec_setDirective_illegal hset s hconf⟩
  have hn' : IsNearestEven (x * 10 ^ 2) n := by norm_num; exact hn
  refine ⟨fun hmax => ?_, exec_setDirective_above hset s n hconf ⟨hone, hcount⟩ hx hn'⟩
  rw [exec_setDirective_admitted hset s n hconf ⟨hone, hcount⟩ hx hn' hmax, asBytes_decimalText_two n hmax]
  rfl

/-- Settles O14: the set directive with `ISET`, three decimals and 9999 units at most. -/
theorem isetDirectiveIsVerbChannelAndThreeDecimals : Obligations.IsetDirectiveIsVerbChannelAndThreeDecimals := by
  refine ⟨fun s ch x n hconf => ?_, refusesOtherOperands _ (by decide)⟩
  have hset := isSetDirective_encIset ch x
  refine ⟨fun hone hcount hx hn => ?_, fun hone hcount => exec_setDirective_negative hset s hconf ⟨hone, hcount⟩,
    exec_setDirective_illegal hset s hconf⟩
  have hn' : IsNearestEven (x * 10 ^ 3) n := by norm_num; exact hn
  refine ⟨fun hmax => ?_, exec_setDirective_above hset s n hconf ⟨hone, hcount⟩ hx hn'⟩
  rw [exec_setDirective_admitted hset s n hconf ⟨hone, hcount⟩ hx hn' hmax, asBytes_decimalText_three n hmax]
  rfl

end Sys2Proof.Machine

/-! The strict numerals (R70, R101): the recogniser reads the integer part up to the first character that is no digit, and what
follows is nothing or the point and the fractional part. -/

namespace Sys2Proof.Machine

/-- A digit string alone is its own integer part. -/
theorem parseNumeral_of_isDigits (I : Str) (hI : IsDigits I) : parseNumeral I = some (numeralVal I []) := by
  obtain ⟨hlead, hafter⟩ := leadDigits_of_append I [] hI.2 nofun
  rw [List.append_nil] at hlead hafter
  rw [parseNumeral, hafter, hlead]
  exact if_neg hI.1

/-- Digits on both sides of the point, at least one in all. -/
theorem parseNumeral_of_point (I F : Str) (hI : ∀ c ∈ I, isDigit c = true) (hF : ∀ c ∈ F, isDigit c = true)
    (hne : ¬ (I = [] ∧ F = [])) : parseNumeral (I ++ [chDot] ++ F) = some (numeralVal I F) := by
  obtain ⟨hlead, hafter⟩ := leadDigits_of_append I (chDot :: F) hI fun c hc => Option.some.inj hc ▸ rfl
  rw [List.append_assoc, List.singleton_append, parseNumeral, hafter, hlead]
  exact if_pos ⟨rfl, List.all_eq_true.2 hF, hne⟩

theorem parseNumeral_of_isNumeral {t I F : Str} (h : IsNumeral t I F) : parseNumeral t = some (numeralVal I F) := by
  rcases h with ⟨hI, rfl, rfl⟩ | ⟨hI, hF, rfl⟩ | ⟨rfl, hF, rfl⟩
  · exact parseNumeral_of_isDigits _ hI
  · refine parseNumeral_of_point I F hI.2 ?_ fun h => hI.1 h.1
    rcases hF with rfl | hF
    · nofun
    · exact hF.2
  · exact parseNumeral_of_point [] F nofun hF.2 fun h => hF.1 h.2

/-- What the recogniser reads is its leading digits and what stands behind the point. -/
theorem isNumeral_of_parseNumeral {t : Str} {v : Rat} (h : parseNumeral t = some v) :
    ∃ I F, IsNumeral t I F ∧ v = numeralVal I F := by
  have hsplit := leadDigits_append_afterDigits t
  have hI := isDigit_of_mem_leadDigits t
  unfold parseNumeral at h
  split at h
  · next hafter =>
    split at h <;> cases h
    next hne =>
    rw [hafter, List.append_nil] at hsplit
    exact ⟨_, [], .inl ⟨⟨hne, hI⟩, rfl, hsplit.symm⟩, rfl⟩
  · next c F hafter =>
    split at h <;> cases h
    next hpoint =>
    obtain ⟨rfl, hF, hne⟩ := hpoint
    have hF := List.all_eq_true.1 hF
    rw [hafter] at hsplit
    refine ⟨_, F, ?_, rfl⟩
    rcases eq_or_ne (leadDigits t) [] with hI0 | hI0
    · rw [hI0] at hsplit ⊢
      exact .inr (.inr ⟨rfl, ⟨fun hF0 => hne ⟨hI0, hF0⟩, hF⟩, hsplit.symm⟩)
    · refine .inr (.inl ⟨⟨hI0, hI⟩, ?_, by simpa using hsplit.symm⟩)
      exact (eq_or_ne F []).imp_right fun hF0 => ⟨hF0, hF⟩

/-- Settles O26: the recogniser's split of a text is the grammar's. -/
theorem strictRecogniserIsTheGrammar : Obligations.StrictRecogniserIsTheGrammar := by
  intro t v
  simp only [← numeralVal_eq]
  refine ⟨isNumeral_of_parseNumeral, ?_⟩
  rintro ⟨I, F, hnum, rfl⟩
  exact parseNumeral_of_isNumeral hnum

/-- The truncation of R101, as the statements write it. -/
theorem eq_truncateTo {txt t : Str} {k : Option Nat} (h : k = none ∧ t = txt ∨ ∃ n, k = some n ∧ t = txt.take n) :
    t = truncateTo txt k := by
  rcases h with ⟨rfl, rfl⟩ | ⟨n, rfl, rfl⟩ <;> rfl

theorem respDecFloat_of_isNumeral {s I F : Str} {k : Option Nat} (h : IsNumeral (truncateTo s k) I F) :
    respDecFloat s k = .ok (.rat ((digitsVal (I ++ F) : Rat) / 10 ^ F.length)) := by
  rw [respDecFloat, parseNumeral_of_isNumeral h, numeralVal_eq]

/-- Settles O24: the truncated text is what the strict recogniser reads. -/
theorem strictNumeralGivesItsExactValue : Obligations.StrictNumeralGivesItsExactValue := by
  intro s txt t I F k hconf ht hnum
  obtain rfl := eq_truncateTo ht
  exact exec_of_outcome_ok _ s _ hconf (respDecFloat_of_isNumeral hnum)

end Sys2Proof.Machine

/-! The lenient numerals (R71): each recogniser splits its text at one character (the underscore, the point, the exponent mark),
which cannot stand in the part before it, so the split is the grammar's. -/

namespace Sys2Proof.Machine

/-! ### Digits with underscores -/

theorem isUdigits_of_isDigits {d : Str} (h : IsDigits d) : IsUdigits d :=
  ⟨[d], by simp, by simpa using h, by simp [List.intercalate]⟩

theorem isUdigits_group {d r : Str} (hd : IsDigits d) (hr : IsUdigits r) : IsUdigits (d ++ chUnderscore :: r) := by
  obtain ⟨groups, hne, hgroups, rfl⟩ := hr
  obtain ⟨g, gs, rfl⟩ := List.exists_cons_of_ne_nil hne
  exact ⟨d :: g :: gs, by simp, by simpa [hd] using hgroups, by simp [List.intercalate]⟩

/-- `udigits` is one group of digits, or a group, an underscore and more of the same. -/
theorem isUdigits_induction {motive : (t : Str) → IsUdigits t → Prop}
    (digits : ∀ (d : Str) (hd : IsDigits d), motive d (isUdigits_of_isDigits hd))
    (group : ∀ (d r : Str) (hd : IsDigits d) (hr : IsUdigits r), motive r hr →
      motive (d ++ chUnderscore :: r) (isUdigits_group hd hr)) {t : Str} (h : IsUdigits t) : motive t h := by
  obtain ⟨groups, hne, hgroups, rfl⟩ := h
  induction groups with
  | nil => exact absurd rfl hne
  | cons g gs ih =>
    have hg : IsDigits g := hgroups g (by simp)
    rcases gs with - | ⟨g', gs⟩
    · simpa [List.intercalate] using digits g hg
    · have hrest : ∀ x ∈ g' :: gs, IsDigits x := fun x hx => hgroups x (List.mem_cons_of_mem g hx)
      have hr : IsUdigits ([chUnderscore].intercalate (g' :: gs)) := ⟨_, by simp, hrest, rfl⟩
      simpa [List.intercalate] using group g _ hg hr (ih (by simp) hrest)

theorem isUdigits_cons_digit {c : Char7} {t : Str} (hc : isDigit c = true) (ht : IsUdigits t) : IsUdigits (c :: t) := by
  have cons_digits (d : Str) (hd : IsDigits d) : IsDigits (c :: d) := ⟨by simp, by simpa [hc] using hd.2⟩
  induction ht using isUdigits_induction with
  | digits d hd => exact isUdigits_of_isDigits (cons_digits d hd)
  | group d r hd hr _ => exact isUdigits_group (cons_digits d hd) hr

/-- What the scan accepts, by whether a digit stands just before. -/
theorem isUdigits_of_isUdigitsFrom (t : Str) :
    (isUdigitsFrom false t = true → IsUdigits t) ∧
    (isUdigitsFrom true t = true → t = [] ∨ IsUdigits t ∨ ∃ r, t = chUnderscore :: r ∧ IsUdigits r) := by
  induction t with
  | nil => exact ⟨nofun, fun _ => .inl rfl⟩
  | cons c cs ih =>
    obtain ⟨ihFalse, ihTrue⟩ := ih
    by_cases hc : isDigit c = true
    · have hone : IsDigits [c] := ⟨by simp, by simpa using hc⟩
      have hcons (h : isUdigitsFrom true cs = true) : IsUdigits (c :: cs) := by
        rcases ihTrue h with rfl | hcs | ⟨r, rfl, hr⟩
        · exact isUdigits_of_isDigits hone
        · exact isUdigits_cons_digit hc hcs
        · exact isUdigits_group hone hr
      simp only [isUdigitsFrom, hc, if_true]
      exact ⟨hcons, fun h => .inr (.inl (hcons h))⟩
    · simp only [isUdigitsFrom, hc, Bool.false_eq_true, if_false, Bool.and_false, Bool.false_and, Bool.and_true,
        Bool.and_eq_true, beq_iff_eq]
      exact ⟨nofun, fun ⟨hc, h⟩ => .inr (.inr ⟨cs, by rw [hc], ihFalse h⟩)⟩

theorem isUdigitsFrom_digits (d r : Str) (hd : IsDigits d) (b : Bool) :
    isUdigitsFrom b (d ++ r) = isUdigitsFrom true r := by
  obtain ⟨hne, hd⟩ := hd
  induction d generalizing b with
  | nil => exact absurd rfl hne
  | cons c cs ih =>
    rw [List.cons_append, isUdigitsFrom, if_pos (hd c (by simp))]
    rcases eq_or_ne cs [] with rfl | hcs
    · rfl
    · exact ih true hcs fun x hx => hd x (List.mem_cons_of_mem c hx)

theorem isUdigits_iff (t : Str) : isUdigits t = true ↔ IsUdigits t := by
  refine ⟨(isUdigits_of_isUdigitsFrom t).1, fun h => ?_⟩
  induction h using isUdigits_induction with
  | digits d hd => simpa [isUdigits, isUdigitsFrom] using isUdigitsFrom_digits d [] hd false
  | group d r hd _ ih =>
    rw [isUdigits, isUdigitsFrom_digits d _ hd]
    exact ih

/-- A property of digits and of the underscore holds all over `udigits`. -/
theorem forall_mem_of_isUdigits {P : Char7 → Prop} (hdigit : ∀ c, isDigit c = true → P c) (hunder : P chUnderscore) {t : Str}
    (h : IsUdigits t) : ∀ c ∈ t, P c := by
  induction h using isUdigits_induction with
  | digits d hd => exact fun c hc => hdigit c (hd.2 c hc)
  | group d r hd _ ih =>
    exact List.forall_mem_append.2 ⟨fun c hc => hdigit c (hd.2 c hc), List.forall_mem_cons.2 ⟨hunder, ih⟩⟩

/-- `udigits` begins with a digit. -/
theorem exists_digit_cons_of_isUdigits {t : Str} (h : IsUdigits t) : ∃ c r, isDigit c = true ∧ t = c :: r := by
  have of_digits (d : Str) (hd : IsDigits d) (r : Str) : ∃ c r', isDigit c = true ∧ d ++ r = c :: r' := by
    obtain ⟨c, cs, rfl⟩ := List.exists_cons_of_ne_nil hd.1
    exact ⟨c, cs ++ r, hd.2 c (by simp), rfl⟩
  induction h using isUdigits_induction with
  | digits d hd => simpa using of_digits d hd []
  | group d r hd _ _ => exact of_digits d hd _

/-! ### The point and the exponent mark -/

/-- The first character that satisfies `f` is where the text is cut. -/
theorem before_fromFirst_append (f : Char7 → Bool) (u r : Str) (d : Char7) (hu : ∀ c ∈ u, f c = false) (hd : f d = true) :
    before f (u ++ d :: r) = u ∧ fromFirst f (u ++ d :: r) = d :: r := by
  induction u with
  | nil => simp [before, fromFirst, hd]
  | cons c cs ih => simpa [before, fromFirst, hu c (by simp)] using ih fun x hx => hu x (List.mem_cons_of_mem c hx)

theorem before_fromFirst_of_none (f : Char7 → Bool) (u : Str) (hu : ∀ c ∈ u, f c = false) :
    before f u = u ∧ fromFirst f u = [] := by
  induction u with
  | nil => exact ⟨rfl, rfl⟩
  | cons c cs ih => simpa [before, fromFirst, hu c (by simp)] using ih fun x hx => hu x (List.mem_cons_of_mem c hx)

theorem isDot_eq_false_of_isUdigits {t : Str} (h : IsUdigits t) : ∀ c ∈ t, isDot c = false :=
  forall_mem_of_isUdigits (by decide) (by decide) h

theorem isUnumeral_iff (t : Str) : isUnumeral t = true ↔ IsUnumeral t := by
  constructor
  · intro h
    have hsplit := before_append_fromFirst isDot t
    unfold isUnumeral at h
    split at h
    · next hnone =>
      rw [hnone, List.append_nil] at hsplit
      exact .inl (hsplit ▸ (isUdigits_iff _).1 h)
    · next d F hdot =>
      obtain rfl : d = chDot := eq_of_beq (fromFirst_head isDot t d F hdot)
      simp only [Bool.or_eq_true, Bool.and_eq_true, isUdigits_iff, List.isEmpty_iff] at h
      rw [hdot] at hsplit
      rcases h with ⟨hI, hF⟩ | ⟨hI, hF⟩
      · exact .inr (.inl ⟨_, F, hI, hF, by simpa using hsplit.symm⟩)
      · exact .inr (.inr ⟨F, hF, by simpa [hI] using hsplit.symm⟩)
  · rintro (h | ⟨I, F, hI, hF, rfl⟩ | ⟨F, hF, rfl⟩)
    · obtain ⟨hbefore, hfrom⟩ := before_fromFirst_of_none isDot t (isDot_eq_false_of_isUdigits h)
      rw [isUnumeral, hfrom, hbefore]
      exact (isUdigits_iff t).2 h
    · obtain ⟨hbefore, hfrom⟩ := before_fromFirst_append isDot I F chDot (isDot_eq_false_of_isUdigits hI) rfl
      rw [List.append_assoc, List.singleton_append, isUnumeral, hfrom, hbefore]
      simp [isUdigits_iff, hI, hF]
    · simp [isUnumeral, fromFirst, before, isDot, isUdigits_iff, hF]

/-- A property of digits, the underscore and the point holds all over a numeral of R71. -/
theorem forall_mem_of_isUnumeral {P : Char7 → Prop} (hdigit : ∀ c, isDigit c = true → P c) (hunder : P chUnderscore)
    (hdot : P chDot) {t : Str} (h : IsUnumeral t) : ∀ c ∈ t, P c := by
  have udigits {d : Str} (hd : IsUdigits d) : ∀ c ∈ d, P c := forall_mem_of_isUdigits hdigit hunder hd
  rcases h with h | ⟨I, F, hI, hF, rfl⟩ | ⟨F, hF, rfl⟩
  · exact udigits h
  · refine List.forall_mem_append.2 ⟨List.forall_mem_append.2 ⟨udigits hI, by simpa using hdot⟩, ?_⟩
    rcases hF with rfl | hF
    · nofun
    · exact udigits hF
  · exact List.forall_mem_append.2 ⟨by simpa using hdot, udigits hF⟩

/-- A numeral of R71 begins with a digit or the point, so with no sign. -/
theorem exists_cons_of_isUnumeral {t : Str} (h : IsUnumeral t) : ∃ c r, isSign c = false ∧ t = c :: r := by
  have not_sign : ∀ c, isDigit c = true → isSign c = false := by decide
  rcases h with h | ⟨I, F, hI, -, rfl⟩ | ⟨F, -, rfl⟩
  · obtain ⟨c, r, hc, rfl⟩ := exists_digit_cons_of_isUdigits h
    exact ⟨c, r, not_sign c hc, rfl⟩
  · obtain ⟨c, r, hc, rfl⟩ := exists_digit_cons_of_isUdigits hI
    exact ⟨c, r ++ [chDot] ++ F, not_sign c hc, rfl⟩
  · exact ⟨chDot, F, rfl, rfl⟩

theorem isSign_iff (c : Char7) : isSign c = true ↔ c = chPlus ∨ c = chMinus := by
  simp [isSign]

/-- What a sign is dropped from is an optional sign and the rest. -/
theorem dropSign_split (t : Str) : ∃ sg, IsOptSign sg ∧ t = sg ++ dropSign t := by
  rcases t with - | ⟨c, cs⟩
  · exact ⟨[], .inl rfl, rfl⟩
  · by_cases hc : isSign c = true
    · exact ⟨[c], .inr (by simpa [isSign_iff] using hc), by simp [dropSign, hc]⟩
    · exact ⟨[], .inl rfl, by simp [dropSign, hc]⟩

/-- A sign in front of a text that begins with none is what is dropped. -/
theorem dropSign_append {sg : Str} (hsg : IsOptSign sg) {c : Char7} (hc : isSign c = false) (r : Str) :
    dropSign (sg ++ c :: r) = c :: r := by
  rcases hsg with rfl | rfl | rfl
  · simp [dropSign, hc]
  · rfl
  · rfl

/-- The number form of `body`. -/
def IsNumberBody (t : Str) : Prop := ∃ u x, IsUnumeral u ∧ (x = [] ∨ IsExponent x) ∧ t = u ++ x

theorem isNumberBody_iff (t : Str) : isNumberBody t = true ↔ IsNumberBody t := by
  constructor
  · intro h
    have hsplit := before_append_fromFirst isExpMark t
    unfold isNumberBody at h
    split at h
    · next hnone =>
      rw [hnone] at hsplit
      exact ⟨_, [], (isUnumeral_iff _).1 h, .inl rfl, hsplit.symm⟩
    · next e x hmark =>
      rw [Bool.and_eq_true, isUnumeral_iff, isUdigits_iff] at h
      obtain ⟨sg, hsg, hx⟩ := dropSign_split x
      have he : toLower e = chLowerE := eq_of_beq (fromFirst_head isExpMark t e x hmark)
      rw [hmark] at hsplit
      exact ⟨_, e :: x, h.1, .inr ⟨e, sg, dropSign x, he, hsg, h.2, by simpa using hx⟩, hsplit.symm⟩
  · rintro ⟨u, x, hu, hx, rfl⟩
    have hmark : ∀ c ∈ u, isExpMark c = false := forall_mem_of_isUnumeral (by decide) (by decide) (by decide) hu
    rcases hx with rfl | ⟨e, sg, d, he, hsg, hd, rfl⟩
    · obtain ⟨hbefore, hfrom⟩ := before_fromFirst_of_none isExpMark u hmark
      rw [List.append_nil, isNumberBody, hfrom, hbefore]
      exact (isUnumeral_iff u).2 hu
    · obtain ⟨c, r, hc, rfl⟩ := exists_digit_cons_of_isUdigits hd
      have hdrop := dropSign_append hsg ((by decide : ∀ c, isDigit c = true → isSign c = false) c hc) r
      obtain ⟨hbefore, hfrom⟩ := before_fromFirst_append isExpMark u (sg ++ c :: r) e hmark (beq_iff_eq.2 he)
      rw [List.append_assoc [e], List.singleton_append, isNumberBody, hfrom, hbefore]
      simp [isUnumeral_iff, isUdigits_iff, hu, hdrop, hd]

theorem isWordBody_iff (t : Str) :
    isWordBody t = true ↔ t.map toLower = wordInf ∨ t.map toLower = wordInfinity ∨ t.map toLower = wordNan := by
  simp [isWordBody, or_assoc]

theorem isBody_iff (t : Str) : IsBody t ↔ isNumberBody t = true ∨ isWordBody t = true := by
  rw [isNumberBody_iff, isWordBody_iff]
  rfl

/-! ### Whitespace and the whole text -/

/-- No character of a body is whitespace: each is a digit, a letter, or one of `_`, `.`, `+`, `-`. -/
theorem isWs_eq_false_of_isBody {t : Str} (h : IsBody t) : ∀ c ∈ t, isWs c = false := by
  have digit : ∀ c, isDigit c = true → isWs c = false := by decide
  have of_word (w : Str) (hw : ∀ c ∈ w, isWs c = false) (ht : t.map toLower = w) : ∀ c ∈ t, isWs c = false := by
    have lower : ∀ c, isWs (toLower c) = isWs c := by decide
    exact fun c hc => lower c ▸ hw _ (ht ▸ List.mem_map_of_mem hc)
  rcases h with ⟨u, x, hu, hx, rfl⟩ | h | h | h
  · refine List.forall_mem_append.2 ⟨forall_mem_of_isUnumeral digit (by decide) (by decide) hu, ?_⟩
    rcases hx with rfl | ⟨e, sg, d, he, hsg, hd, rfl⟩
    · nofun
    · have hmark : isWs e = false := (by decide : ∀ c, toLower c = chLowerE → isWs c = false) e he
      have hsign : ∀ c ∈ sg, isWs c = false := by rcases hsg with rfl | rfl | rfl <;> decide
      exact List.forall_mem_append.2
        ⟨List.forall_mem_append.2 ⟨by simpa using hmark, hsign⟩, forall_mem_of_isUdigits digit (by decide) hd⟩
  · exact of_word wordInf (by decide) h
  · exact of_word wordInfinity (by decide) h
  · exact of_word wordNan (by decide) h

/-- A body begins with a character that is no sign. -/
theorem exists_cons_of_isBody {t : Str} (h : IsBody t) : ∃ c r, isSign c = false ∧ t = c :: r := by
  have of_word (w : Str) (hw : w ≠ []) (hsign : ∀ c ∈ w, isSign c = false) (ht : t.map toLower = w) :
      ∃ c r, isSign c = false ∧ t = c :: r := by
    have lower : ∀ c, isSign (toLower c) = isSign c := by decide
    obtain ⟨c, r, rfl⟩ := List.exists_cons_of_ne_nil (l := t) (by rintro rfl; exact hw ht.symm)
    exact ⟨c, r, lower c ▸ hsign _ (ht ▸ List.mem_cons_self), rfl⟩
  rcases h with ⟨u, x, hu, hx, rfl⟩ | h | h | h
  · obtain ⟨c, r, hc, rfl⟩ := exists_cons_of_isUnumeral hu
    exact ⟨c, r ++ x, hc, rfl⟩
  · exact of_word wordInf (by decide) (by decide) h
  · exact of_word wordInfinity (by decide) (by decide) h
  · exact of_word wordNan (by decide) (by decide) h

/-- Whitespace in front of a text that begins with none is what is dropped. -/
theorem dropWs_append (w m : Str) (hw : ∀ c ∈ w, isWs c = true) (hm : ∀ c, m.head? = some c → isWs c = false) :
    dropWs (w ++ m) = m := by
  induction w with
  | nil =>
    rcases m with - | ⟨c, cs⟩
    · rfl
    · simp [dropWs, hm c rfl]
  | cons c cs ih => simpa [dropWs, hw c (by simp)] using ih fun x hx => hw x (List.mem_cons_of_mem c hx)

/-- Trimming leaves what stands between the whitespace, where that begins and ends with none. -/
theorem trimWs_append (w m w' : Str) (hw : ∀ c ∈ w, isWs c = true) (hm : ∀ c ∈ m, isWs c = false) (hne : m ≠ [])
    (hw' : ∀ c ∈ w', isWs c = true) : trimWs (w ++ m ++ w') = m := by
  have hfront : dropWs (w ++ (m ++ w')) = m ++ w' := by
    refine dropWs_append w _ hw fun c hc => hm c ?_
    rw [List.head?_append_of_ne_nil _ hne] at hc
    exact List.mem_of_head? hc
  have hback : dropWs (w'.reverse ++ m.reverse) = m.reverse := by
    refine dropWs_append _ _ (fun c hc => hw' c (List.mem_reverse.1 hc)) fun c hc => hm c ?_
    exact List.mem_reverse.1 (List.mem_of_head? hc)
  rw [trimWs, List.append_assoc, hfront, List.reverse_append, hback, List.reverse_reverse]

theorem trimWs_split (t : Str) :
    ∃ w w', (∀ c ∈ w, isWs c = true) ∧ (∀ c ∈ w', isWs c = true) ∧ t = w ++ trimWs t ++ w' := by
  obtain ⟨w, hw, ht⟩ := dropWs_split t
  obtain ⟨w', hw', hrest⟩ := dropWs_split (dropWs t).reverse
  refine ⟨w, w'.reverse, hw, fun c hc => hw' c (List.mem_reverse.1 hc), ?_⟩
  have hrest := congrArg List.reverse hrest
  rw [List.reverse_reverse, List.reverse_append] at hrest
  rw [List.append_assoc, trimWs, ← hrest]
  exact ht

/-- Settles O27: what trimming and the sign leave is the body, since a body holds no whitespace and begins with no sign. -/
theorem lenientRecogniserIsTheGrammar : Obligations.LenientRecogniserIsTheGrammar := by
  intro t
  rw [isLenient, Bool.or_eq_true, ← isBody_iff]
  constructor
  · intro hb
    obtain ⟨w, w', hw, hw', ht⟩ := trimWs_split t
    obtain ⟨sg, hsg, htrim⟩ := dropSign_split (trimWs t)
    exact ⟨w, sg, _, w', hw, hsg, hb, hw', by rwa [List.append_assoc w, ← htrim]⟩
  · rintro ⟨w, sg, b, w', hw, hsg, hb, hw', rfl⟩
    have hsign : ∀ c ∈ sg, isWs c = false := by rcases hsg with rfl | rfl | rfl <;> decide
    have hbody := isWs_eq_false_of_isBody hb
    obtain ⟨c, r, hc, rfl⟩ := exists_cons_of_isBody hb
    rw [List.append_assoc w, trimWs_append w _ w' hw (List.forall_mem_append.2 ⟨hsign, hbody⟩) (by simp) hw',
      dropSign_append hsg hc]
    exact hb

/-- Settles O28: without underscores the numeral of R71 is that of R70, and it stands alone. -/
theorem strictNumeralsAreLenient : Obligations.StrictNumeralsAreLenient := by
  have of_unumeral {t : Str} (h : IsUnumeral t) : IsLenient t :=
    ⟨[], [], t, [], nofun, .inl rfl, .inl ⟨t, [], h, .inl rfl, by simp⟩, nofun, by simp⟩
  rintro t I F (⟨hI, -, rfl⟩ | ⟨hI, hF, rfl⟩ | ⟨rfl, hF, rfl⟩)
  · exact of_unumeral (.inl (isUdigits_of_isDigits hI))
  · exact of_unumeral (.inr (.inl ⟨I, F, isUdigits_of_isDigits hI, hF.imp_right isUdigits_of_isDigits, rfl⟩))
  · exact of_unumeral (.inr (.inr ⟨F, isUdigits_of_isDigits hF, rfl⟩))

/-- On a configured block an instruction with an `Err` outcome puts it on RSP and changes nothing else. -/
theorem exec_of_outcome_err (i : Instr) (s : State) (e : ErrKind) (hconf : s.configured = true)
    (h : outcomeOf s.channelCount i = .err e) : exec i s = .next { s with rsp := some (.err e) } := by
  rw [exec_eq_answer, h, answer_configured s _ hconf, respond_of_not_refused s _ (isRefused_err e)]

/-- What is no strict numeral is read by the lenient recogniser alone. -/
theorem parseNumeral_eq_none {t : Str} (h : ∀ I F, ¬ IsNumeral t I F) : parseNumeral t = none :=
  Option.eq_none_iff_forall_ne_some.2 fun _ hv =>
    let ⟨I, F, hnum, _⟩ := isNumeral_of_parseNumeral hv
    h I F hnum

/-- Settles O25: the strict recogniser fails, and the lenient one is the grammar. -/
theorem otherTextIsRefusedOrAParseError : Obligations.OtherTextIsRefusedOrAParseError := by
  intro s txt t k hconf ht hnum
  obtain rfl := eq_truncateTo ht
  have hparse := parseNumeral_eq_none hnum
  rw [← lenientRecogniserIsTheGrammar]
  refine ⟨fun hl => exec_of_outcome_refused _ s _ hconf ?_, fun hl => exec_of_outcome_err _ s _ hconf ?_⟩ <;>
    simp [outcomeOf, respDecFloat, hparse, hl]

end Sys2Proof.Machine

/-! Reading back (R90, R100, R101): the first high byte is kept and decides; and what a set directive writes behind the colon is
decoded to the units it was written from. -/

namespace Sys2Proof.Machine

/-- Stripping leaves a byte that is no NUL, and all before it. -/
theorem keptBytes_of_ne_nul (pre post : Bytes) (b : Byte) (hb : b ≠ 0x00#8) :
    ∃ n, keptBytes (pre ++ [b] ++ post) = pre ++ [b] ++ post.take n := by
  have hlt : pre.length < (pre ++ [b] ++ post).length := by simp
  have hkept := lt_keptLength (pre ++ [b] ++ post) pre.length _ hlt hlt (by simpa using hb)
  refine ⟨keptLength (pre ++ [b] ++ post) (pre ++ [b] ++ post).length - (pre ++ [b]).length, ?_⟩
  rw [keptBytes, memRead, List.drop_zero, List.take_append, List.take_of_length_le (by simpa using hkept)]

/-- A byte above 0x7F is no NUL, so it is kept, and it is the first of the kept ones above 0x7F. -/
theorem respDecText_of_high (pre post : Bytes) (b : Byte) (hpre : ∀ c ∈ pre, c.toNat ≤ 0x7F) (hb : 0x7F < b.toNat) :
    respDecText (pre ++ [b] ++ post) = .err (.decodeError pre.length) := by
  obtain ⟨n, hkept⟩ := keptBytes_of_ne_nul pre post b (by rintro rfl; exact absurd hb (by decide))
  rw [respDecText, hkept, firstHigh_eq_some pre _ b 0 hpre hb, Nat.zero_add]

/-- Settles O23: the high byte is among the kept ones, and the first of them. -/
theorem decodeErrorNamesTheFirstHighByte : Obligations.DecodeErrorNamesTheFirstHighByte :=
  fun s pre post b hconf hpre hb => exec_of_outcome_err _ s _ hconf (respDecText_of_high pre post b hpre hb)

theorem truncate_zeroExtend (c : Char7) : (c.zeroExtend 8).truncate 7 = c :=
  BitVec.setWidth_setWidth_of_le c (by decide)

theorem map_truncate_asBytes (txt : Str) : (asBytes txt).map (fun b => b.truncate 7) = txt := by
  rw [asBytes, List.map_map]
  exact (List.map_congr_left fun c _ => truncate_zeroExtend c).trans (List.map_id txt)

/-- The bytes of a text that ends in no NUL decode to it. -/
theorem respDecText_asBytes (txt : Str) (hlast : txt.getLast? ≠ some 0x00#7) : respDecText (asBytes txt) = .ok (.text txt) := by
  have hlast' : (asBytes txt).getLast? ≠ some 0x00#8 := by
    rw [asBytes, List.getLast?_map]
    intro h
    obtain ⟨c, hc, hnul⟩ := Option.map_eq_some_iff.1 h
    rw [← truncate_zeroExtend c, hnul] at hc
    exact hlast hc
  have hkept : keptBytes (asBytes txt) = asBytes txt := by simpa using keptBytes_append_nuls (asBytes txt) 0 hlast'
  rw [respDecText_of_sevenBit, hkept, map_truncate_asBytes]
  rw [hkept, asBytes, List.forall_mem_map]
  intro c _
  rw [BitVec.zeroExtend, BitVec.toNat_setWidth_of_le (by decide)]
  exact Nat.le_of_lt_succ c.isLt

theorem digitsVal_pad (n p : Nat) : digitsVal (pad n p) = n % 10 ^ p := by
  induction p generalizing n with
  | zero => simp [pad, digitsVal, Nat.mod_one]
  | succ p ih =>
    rw [pad, digitsVal_append, ih, digitsVal_singleton _ (by omega), List.length_singleton, pow_one,
      pow_succ' 10 p, Nat.mod_mul]
    omega

theorem isNumeral_decimalText (n p : Nat) :
    IsNumeral (decimalText n (p + 1)) (dec (n / 10 ^ (p + 1))) (pad (n % 10 ^ (p + 1)) (p + 1)) := by
  refine .inr (.inl ⟨isDigits_dec _, .inr ⟨?_, isDigit_of_mem_pad _ _⟩, rfl⟩)
  simp [pad]

/-- A fixed-decimal text of `n` units reads as `n` units. -/
theorem respDecFloat_decimalText (n p : Nat) (k : Option Nat) (hk : truncateTo (decimalText n (p + 1)) k = decimalText n (p + 1)) :
    respDecFloat (decimalText n (p + 1)) k = .ok (.rat ((n : Rat) / 10 ^ (p + 1))) := by
  have hnum := isNumeral_decimalText n p
  rw [← hk] at hnum
  have hval : digitsVal (dec (n / 10 ^ (p + 1)) ++ pad (n % 10 ^ (p + 1)) (p + 1)) = n := by
    rw [digitsVal_append, digitsVal_dec, digitsVal_pad, pad_length, Nat.mod_mod, Nat.div_add_mod']
  rw [respDecFloat_of_isNumeral hnum, hval, pad_length]

/-- A fixed-decimal text ends in a digit, so in no NUL. -/
theorem decimalText_getLast?_ne_nul (n p : Nat) : (decimalText n (p + 1)).getLast? ≠ some 0x00#7 := by
  rw [decimalText_getLast?]
  intro h
  have hdigit := isDigit_digitChar (n % 10) (by omega)
  rw [Option.some.inj h] at hdigit
  cases hdigit

/-- What a set directive writes where it answers with bytes. -/
theorem setDirective_bytes {verb : Str} {p max : Nat} {i : Instr} {ch : Nat} {x : Rat}
    (hi : IsSetDirective verb p max i ch x) {s t : State} {tx : Bytes} (h : exec i s = .next t)
    (hrsp : t.rsp = some (.ok (.bytes tx))) :
    ∃ n, n ≤ max ∧ IsNearestEven (x * 10 ^ p) n ∧
      tx = asBytes verb ++ [digitByte ch, 0x3A#8] ++ asBytes (decimalText n p) := by
  have hout := outcomeOf_of_exec_ok i s t _ h hrsp
  rw [hi] at hout
  obtain ⟨hch, hout⟩ := checkChannel_ok _ ch _ _ hout
  rcases encodeDirective_cases verb ch x p max with ⟨hx, hmax, hok⟩ | ⟨-, hrange⟩
  · rw [hok, txOf_directive _ _ ch (by omega)] at hout
    cases hout
    exact ⟨_, hmax, (rne_scale10 x p _ hx).1 rfl, rfl⟩
  · rw [hrange] at hout
    cases hout

/-- The nearest integer of units is within half a unit. -/
theorem abs_units_sub_le {x : Rat} {n p : Nat} (h : IsNearestEven (x * 10 ^ p) n) :
    |(n : Rat) / 10 ^ p - x| ≤ 1 / (2 * 10 ^ p) := by
  have hpos : (0 : Rat) < 10 ^ p := by positivity
  have hscaled : x - n / 10 ^ p = (x * 10 ^ p - n) / 10 ^ p := by field_simp
  have hhalf : 1 / (2 * 10 ^ p) * 10 ^ p = (1 / 2 : Rat) := by field_simp
  rw [abs_sub_comm, hscaled, abs_div, abs_of_pos hpos, div_le_iff₀ hpos, hhalf]
  linarith [h.1]

/-- A set directive's text reads back to the units written: DEC_TEXT gives the text, DEC_FLOAT the units. -/
theorem decimalText_reads_back (s : State) (n p : Nat) (hconf : s.configured = true) :
    exec (.decText (asBytes (decimalText n (p + 1)))) s =
      .next { s with rsp := some (.ok (.text (decimalText n (p + 1)))) } ∧
    ∀ k, truncateTo (decimalText n (p + 1)) k = decimalText n (p + 1) →
      exec (.decFloat (decimalText n (p + 1)) k) s = .next { s with rsp := some (.ok (.rat ((n : Rat) / 10 ^ (p + 1)))) } :=
  ⟨exec_of_outcome_ok _ s _ hconf (respDecText_asBytes _ (decimalText_getLast?_ne_nul n p)),
    fun k hk => exec_of_outcome_ok _ s _ hconf (respDecFloat_decimalText n p k hk)⟩

/-- Settles O29: the text behind the colon has two decimals. -/
theorem voltageRoundTripsToWithinHalfAUnit : Obligations.VoltageRoundTripsToWithinHalfAUnit := by
  intro s t ch x tx hconf h hrsp
  obtain ⟨n, -, hn, rfl⟩ := setDirective_bytes (isSetDirective_encVset ch x) h hrsp
  obtain ⟨htext, hfloat⟩ := decimalText_reads_back s n 1 hconf
  have hbound := abs_units_sub_le hn
  norm_num at hn hfloat hbound
  exact ⟨decimalText n 2, n, rfl, htext, hfloat none rfl, hn, hbound⟩

/-- A current's text is one digit, the point and three decimals. -/
theorem decimalText_three_length (n : Nat) (h : n ≤ 9999) : (decimalText n 3).length = 5 := by
  rw [← List.length_map, ← asBytes, asBytes_decimalText_three n h]
  rfl

/-- Settles O30: the text behind the colon has three decimals, and the truncation leaves its five characters. -/
theorem currentRoundTripsToWithinHalfAUnit : Obligations.CurrentRoundTripsToWithinHalfAUnit := by
  intro s t ch x tx hconf h hrsp
  obtain ⟨n, hmax, hn, rfl⟩ := setDirective_bytes (isSetDirective_encIset ch x) h hrsp
  obtain ⟨htext, hfloat⟩ := decimalText_reads_back s n 2 hconf
  have hbound := abs_units_sub_le hn
  have hlen := decimalText_three_length n hmax
  have hcut : truncateTo (decimalText n 3) (some 5) = decimalText n 3 := List.take_of_length_le hlen.le
  norm_num at hn hfloat hbound
  exact ⟨decimalText n 3, n, rfl, hlen, htext, hfloat none rfl, hfloat (some 5) hcut, hn, hbound⟩

end Sys2Proof.Machine

/-! The status decoder (R120 to R122, R130): the fields are the named bits and depend on no other, and each channel takes its mode
and its four reads. -/

namespace Sys2Proof.Machine

/-- Settles O31: DEC_STATUS_RAW looks at the length alone. -/
theorem statusReplyIsExactlyOneByte : Obligations.StatusReplyIsExactlyOneByte := by
  refine fun s hconf => ⟨fun b => exec_of_outcome_ok _ s _ hconf rfl, fun buf hlen => ?_⟩
  rcases respDecStatusRaw_cases buf with ⟨b, rfl, -⟩ | ⟨-, h⟩
  · exact absurd rfl hlen
  · exact exec_of_outcome_err _ s _ hconf h

/-- Settles O36: DECODE_STATUS checks the number of reads first. -/
theorem wrongNumberOfReadsIsRefused : Obligations.WrongNumberOfReadsIsRefused := by
  intro s b reads hconf hlen
  rcases respDecodeStatus_cases s.channelCount b reads with ⟨h, -⟩ | ⟨-, h⟩
  · exact absurd h hlen
  · exact exec_of_outcome_refused _ s _ hconf h

/-- The tracking mode by its table (R28). -/
theorem trackOf_eq_getD (v : Nat) (h : v < 4) :
    trackOf v = [Track.independent, Track.series, Track.reserved, Track.parallel].getD v Track.reserved := by
  interval_cases v <;> rfl

/-- Settles O33: the answer is `statusFields`, whose second mode is there for two channels. -/
theorem statusFieldsAreTheNamedBits : Obligations.StatusFieldsAreTheNamedBits := by
  intro s b hconf hcount
  refine ⟨(statusFields s.channelCount b).track, ?_, trackOf_eq_getD _ (Nat.mod_lt _ (by decide))⟩
  rw [exec_decStatusFields_of_configured s b hconf]
  rcases hcount with h | h <;> rw [h] <;> rfl

theorem modeOf_inj (x y : Bool) : modeOf x = modeOf y ↔ x = y := by
  cases x <;> cases y <;> simp [modeOf]

theorem trackOf_inj (x y : BitVec 2) : trackOf x.toNat = trackOf y.toNat ↔ x = y := by
  revert x y
  decide

/-- The tracking field of two bytes is the same if bits 2 and 3 are. -/
theorem extractTrack_inj (b c : Byte) :
    b.extractLsb' 2 2 = c.extractLsb' 2 2 ↔ b.getLsbD 2 = c.getLsbD 2 ∧ b.getLsbD 3 = c.getLsbD 3 := by
  refine ⟨fun h => ⟨?_, ?_⟩, fun ⟨h2, h3⟩ => BitVec.eq_of_getLsbD_eq fun i hi => ?_⟩
  · simpa using congrArg (·.getLsbD 0) h
  · simpa using congrArg (·.getLsbD 1) h
  · interval_cases i
    · simpa using h2
    · simpa using h3

theorem statusFields_ext_iff (f g : StatusFields) :
    f = g ↔ f.modes = g.modes ∧ f.track = g.track ∧ f.beep = g.beep ∧ f.lock = g.lock ∧ f.output = g.output := by
  cases f
  cases g
  exact StatusFields.mk.injEq .. ▸ Iff.rfl

/-- The fields of two status bytes are the same if the bits they are read from are: bit 1 with two channels only. -/
theorem statusFields_inj (count : BitVec 2) (b c : Byte) :
    statusFields count b = statusFields count c ↔
      (b.getLsbD 0 = c.getLsbD 0 ∧ (count.toNat = 2 → b.getLsbD 1 = c.getLsbD 1)) ∧
      (b.getLsbD 2 = c.getLsbD 2 ∧ b.getLsbD 3 = c.getLsbD 3) ∧
      b.getLsbD 4 = c.getLsbD 4 ∧ b.getLsbD 5 = c.getLsbD 5 ∧ b.getLsbD 6 = c.getLsbD 6 := by
  rw [← extractTrack_inj, ← trackOf_inj, ← statusFields_track count, ← statusFields_track count, statusFields_ext_iff]
  by_cases h : count.toNat = 2 <;> simp [statusFields, bitOf, modeOf_inj, h]

/-- On a configured block two status bytes are answered alike if their fields are the same. -/
theorem exec_decStatusFields_inj (s : State) (b c : Byte) (hconf : s.configured = true) :
    exec (.decStatusFields b) s = exec (.decStatusFields c) s ↔
      statusFields s.channelCount b = statusFields s.channelCount c := by
  rw [exec_decStatusFields_of_configured s b hconf, exec_decStatusFields_of_configured s c hconf]
  simp

theorem forall_lt_seven (P : Nat → Prop) : (∀ i < 7, P i) ↔ P 0 ∧ P 1 ∧ P 2 ∧ P 3 ∧ P 4 ∧ P 5 ∧ P 6 := by
  constructor
  · exact fun h => ⟨h 0 (by decide), h 1 (by decide), h 2 (by decide), h 3 (by decide), h 4 (by decide), h 5 (by decide),
      h 6 (by decide)⟩
  · rintro ⟨h0, h1, h2, h3, h4, h5, h6⟩ i hi
    interval_cases i <;> assumption

/-- Settles O34: the fields are the same exactly if the bits they are read from are. -/
theorem statusFieldsDependOnExactlyTheNamedBits : Obligations.StatusFieldsDependOnExactlyTheNamedBits := by
  intro s b c hconf
  refine ⟨fun hcount => ?_, fun hcount => ?_⟩ <;>
    rw [exec_decStatusFields_inj s b c hconf, statusFields_inj, hcount, forall_lt_seven] <;>
    simp [and_assoc]

/-- The channels of R130: one for each mode. -/
theorem assembleChannels_length (modes : List Mode) (reads : List Rat) (h : reads.length = 4 * modes.length) :
    (assembleChannels modes reads).length = modes.length := by
  induction modes generalizing reads with
  | nil => rfl
  | cons m ms ih =>
    match reads, h with
    | _ :: _ :: _ :: _ :: rest, h =>
      rw [assembleChannels, List.length_cons, List.length_cons, ih rest (by simp at h; omega)]
    | [], h | [_], h | [_, _], h | [_, _, _], h => simp only [List.length_cons, List.length_nil] at h; omega

/-- The channels of R130: each takes its mode and the four reads of its place. -/
theorem assembleChannels_getElem? (modes : List Mode) (reads : List Rat) (c : Nat) (d : ChannelStatus)
    (h : (assembleChannels modes reads)[c]? = some d) :
    modes[c]? = some d.mode ∧ reads[4 * c]? = some d.setVoltage ∧ reads[4 * c + 1]? = some d.setCurrent ∧
      reads[4 * c + 2]? = some d.measuredVoltage ∧ reads[4 * c + 3]? = some d.measuredCurrent := by
  fun_induction assembleChannels modes reads generalizing c with
  | case1 m ms sv sc mv mc rest ih =>
    cases c with
    | zero => cases h; exact ⟨rfl, rfl, rfl, rfl, rfl⟩
    | succ c => exact ih c h
  | case2 => cases h

/-- On a legal count there is one mode a channel. -/
theorem statusFields_modes_length (count : BitVec 2) (b : Byte) (h : count = 1#2 ∨ count = 2#2) :
    (statusFields count b).modes.length = count.toNat := by
  rcases h with rfl | rfl <;> rfl

/-- On a legal count, four reads a channel give one record a channel. -/
theorem deviceStatus_channels_length (count : BitVec 2) (b : Byte) (reads : List Rat) (h : count = 1#2 ∨ count = 2#2)
    (hlen : reads.length = 4 * count.toNat) : (deviceStatus (statusFields count b) reads).channels.length = count.toNat := by
  have hmodes := statusFields_modes_length count b h
  exact (assembleChannels_length _ reads (hlen.trans (congrArg _ hmodes.symm))).trans hmodes

/-- Settles O35: the channels are assembled from the modes of the status byte and the reads. -/
theorem deviceStatusTakesFourReadsAChannel : Obligations.DeviceStatusTakesFourReadsAChannel := by
  intro s b reads hconf hcount hlen
  rcases respDecodeStatus_cases s.channelCount b reads with ⟨-, h⟩ | ⟨hne, -⟩
  · exact ⟨_, _, exec_decStatusFields_of_configured s b hconf, exec_of_outcome_ok _ s _ hconf h,
      deviceStatus_channels_length _ b reads hcount hlen, assembleChannels_getElem? _ reads⟩
  · exact absurd hlen hne

end Sys2Proof.Machine

/-! The invariant (R20, R30, R31, R62 to R64, R100, R142, R147, R160): each operation's outcome is legal on a block with one or two
channels, and a step keeps the invariant because it answers with such an outcome or accepts a reset. -/

namespace Sys2Proof.Machine

/-! ### Commands -/

/-- A printable text of 4 to 11 characters is a command as it may stand on RSP. -/
theorem wireBytesOk_txOf (t : Str) (hprint : ∀ c ∈ t, isPrintable c = true) (hlen : 4 ≤ t.length ∧ t.length ≤ 11) :
    wireBytesOk (txOf t) = true := by
  have hbytes : ∀ b ∈ txOf t, 0x21 ≤ b.toNat ∧ b.toNat ≤ 0x7E := by
    rw [txOf_eq_map, List.forall_mem_map]
    intro c hc
    have hc := hprint c hc
    simp only [isPrintable, Bool.and_eq_true, decide_eq_true_eq] at hc
    rw [BitVec.zeroExtend, BitVec.toNat_setWidth_of_le (by decide)]
    exact hc
  simpa [wireBytesOk, hlen] using hbytes

theorem dec_length_le (n p : Nat) (hp : 1 ≤ p) (h : n < 10 ^ p) : (dec n).length ≤ p :=
  (paddedNumeralIsTheNumeralBehindZeros n p hp h).1

theorem dec_length_of_lt_ten (n : Nat) (h : n < 10) : (dec n).length = 1 := by
  rw [dec_of_lt_ten n h]
  rfl

/-- With `q` integer digits at most, a fixed-decimal text has the point and the decimals besides. -/
theorem decimalText_length_le (n p q : Nat) (hq : 1 ≤ q) (h : n < 10 ^ p * 10 ^ q) : (decimalText n p).length ≤ q + 1 + p := by
  have hint := dec_length_le (n / 10 ^ p) q hq (Nat.div_lt_of_lt_mul h)
  simp only [decimalText, List.length_append, List.length_singleton, pad_length]
  omega

/-- The channel check gives a legal outcome if what stands behind it does. -/
theorem legal_checkChannel (count : BitVec 2) (ch : Nat) (r : Response)
    (h : 1 ≤ ch ∧ ch ≤ count.toNat → r.legal count = true) : (checkChannel count ch r).legal count = true := by
  by_cases hch : 1 ≤ ch ∧ ch ≤ count.toNat
  · rw [checkChannel_legal count ch r hch]
    exact h hch
  · rw [checkChannel_illegal count ch r hch]
    rfl

theorem legal_channelQuery (count : BitVec 2) (ch : Nat) (verb : Str) (hverb : ∀ c ∈ verb, isPrintable c = true)
    (hlen : verb.length = 4) : (checkChannel count ch (.ok (.bytes (encodeQuery verb (some ch))))).legal count = true := by
  refine legal_checkChannel count ch _ fun hch => wireBytesOk_txOf _ (isQueryText_append_query verb _ hverb).printable ?_
  simp [channelText, hlen, dec_length_of_lt_ten ch (by omega)]

theorem legal_setDirective (count : BitVec 2) (ch : Nat) (verb : Str) (x : Rat) (p q max : Nat)
    (hverb : ∀ c ∈ verb, isPrintable c = true) (hlen : verb.length = 4) (hq : 1 ≤ q) (hpq : p + 1 + q ≤ 4)
    (hmax : max < 10 ^ (p + 1) * 10 ^ q) :
    (checkChannel count ch (encodeDirective verb ch x (p + 1) max)).legal count = true := by
  refine legal_checkChannel count ch _ fun hch => ?_
  rcases encodeDirective_cases verb ch x (p + 1) max with ⟨-, hn, h⟩ | ⟨-, h⟩ <;> rw [h]
  · refine wireBytesOk_txOf _ (isDirectiveText_append_decimalText verb ch _ p hverb).printable ?_
    have htext := decimalText_length_le _ (p + 1) q hq (hn.trans_lt hmax)
    simp only [List.length_append, hlen, dec_length_of_lt_ten ch (by omega), List.length_singleton]
    omega
  · rfl

/-! ### Decoded texts, numbers and records -/

theorem sevenBit_of_firstHigh_none (l : Bytes) (i : Nat) (h : firstHigh l i = none) : ∀ b ∈ l, b.toNat ≤ 0x7F := by
  induction l generalizing i with
  | nil => nofun
  | cons b bs ih =>
    rw [firstHigh] at h
    split at h
    · cases h
    · exact List.forall_mem_cons.2 ⟨by omega, ih (i + 1) h⟩

/-- The scan stops at a byte that is no NUL. -/
theorem getLast?_take_keptLength (rx : Bytes) (m : Nat) (hm : m ≤ rx.length) :
    (rx.take (keptLength rx m)).getLast? ≠ some 0x00#8 := by
  induction m with
  | zero => simp [keptLength]
  | succ m ih =>
    unfold keptLength
    split
    · exact ih (by omega)
    · next hne =>
      rw [memRead_one rx m hm] at hne
      rw [List.take_succ_eq_append_getElem hm, List.getLast?_concat]
      simpa using hne

theorem keptBytes_getLast?_ne_nul (buf : Bytes) : (keptBytes buf).getLast? ≠ some 0x00#8 :=
  getLast?_take_keptLength buf buf.length le_rfl

theorem legal_respDecText (count : BitVec 2) (buf : Bytes) : (respDecText buf).legal count = true := by
  rcases respDecText_cases buf with ⟨n, -, h⟩ | ⟨hnone, h⟩ <;> rw [h]
  · rfl
  · have hbytes := asBytes_map_truncate _ (sevenBit_of_firstHigh_none _ 0 hnone)
    refine bne_iff_ne.2 fun hlast => keptBytes_getLast?_ne_nul buf ?_
    rw [← hbytes, asBytes, List.getLast?_map, hlast]
    rfl

theorem numeralVal_nonneg (I F : Str) : 0 ≤ numeralVal I F := by
  rw [numeralVal_eq]
  positivity

theorem legal_respDecFloat (count : BitVec 2) (s : Str) (k : Option Nat) : (respDecFloat s k).legal count = true := by
  rcases respDecFloat_cases s k with ⟨v, hv, h⟩ | ⟨-, -, h⟩ | ⟨-, -, h⟩ <;> rw [h]
  · obtain ⟨I, F, -, rfl⟩ := isNumeral_of_parseNumeral hv
    exact decide_eq_true (Rat.num_nonneg.2 (numeralVal_nonneg I F))
  · rfl
  · rfl

theorem legal_respDecodeStatus (count : BitVec 2) (sb : Byte) (reads : List Rat) (hcount : count = 1#2 ∨ count = 2#2) :
    (respDecodeStatus count sb reads).legal count = true := by
  rcases respDecodeStatus_cases count sb reads with ⟨hlen, h⟩ | ⟨-, h⟩ <;> rw [h]
  · exact beq_iff_eq.2 (deviceStatus_channels_length count sb reads hcount hlen)
  · rfl

/-- Every instruction's outcome is legal on a block with one or two channels. -/
theorem legal_outcomeOf (count : BitVec 2) (i : Instr) (hcount : count = 1#2 ∨ count = 2#2) :
    (outcomeOf count i).legal count = true := by
  cases i with
  | encIdn => exact wireBytesOk_txOf _ (isQueryText_append_query verbIdn none (by decide)).printable (by decide)
  | encStatusQ => exact wireBytesOk_txOf _ (isQueryText_append_query verbStatus none (by decide)).printable (by decide)
  | encOut flag => exact wireBytesOk_txOf _ (isDirectiveText_out flag).printable (by split <;> decide)
  | encVset ch x => exact legal_setDirective count ch verbVset x 1 2 9999 (by decide) rfl (by decide) (by decide) (by decide)
  | encIset ch x => exact legal_setDirective count ch verbIset x 2 1 9999 (by decide) rfl (by decide) (by decide) (by decide)
  | encVsetQ ch => exact legal_channelQuery count ch verbVset (by decide) rfl
  | encIsetQ ch => exact legal_channelQuery count ch verbIset (by decide) rfl
  | encVoutQ ch => exact legal_channelQuery count ch verbVout (by decide) rfl
  | encIoutQ ch => exact legal_channelQuery count ch verbIout (by decide) rfl
  | decText buf => exact legal_respDecText count buf
  | decFloat t k => exact legal_respDecFloat count t k
  | decStatusRaw buf =>
    rcases respDecStatusRaw_cases buf with ⟨b, -, h⟩ | ⟨-, h⟩ <;> rw [outcomeOf, h] <;> rfl
  | decStatusFields sb => exact beq_iff_eq.2 (statusFields_modes_length count sb hcount)
  | decodeStatus sb reads => exact legal_respDecodeStatus count sb reads hcount

/-! ### The steps -/

theorem legal_responseTo (count : BitVec 2) (r : Request) (hcount : count = 1#2 ∨ count = 2#2) :
    (responseTo count r).legal count = true := by
  rcases h : decode r with e | i
  · rw [responseTo_of_reject count h]
    rfl
  · rw [responseTo_of_decode count h]
    exact legal_outcomeOf count i hcount

/-- A state that has answered meets the invariant if the answer is legal, and a refusal where the block is unconfigured. -/
theorem inv_respond (s : State) (r : Response) (hcount : s.configured = true → s.channelCount = 1#2 ∨ s.channelCount = 2#2)
    (hlegal : r.legal s.channelCount = true) (hconf : s.configured = false → r.isRefused = true) : (s.respond r).Inv := by
  refine ⟨hcount, fun r' hr => ?_⟩
  obtain rfl := Option.some.inj hr
  exact ⟨hlegal, hconf, fun href => by rw [respond_runRefused, href, Bool.or_true]⟩

/-- A state with nothing on RSP meets the invariant if its count is legal. -/
theorem inv_of_rsp_none (s : State) (hcount : s.configured = true → s.channelCount = 1#2 ∨ s.channelCount = 2#2)
    (hrsp : s.rsp = none) : s.Inv :=
  ⟨hcount, fun r hr => by rw [hrsp] at hr; cases hr⟩

/-- Settles O38: RSP is empty at both starts, and the count of reset is 1. -/
theorem invariantHoldsAtReset : Obligations.InvariantHoldsAtReset :=
  fun _ => ⟨inv_of_rsp_none _ (fun _ => .inl rfl) rfl, inv_of_rsp_none _ nofun rfl⟩

/-- Settles O37: a step changes nothing, accepts a reset and empties RSP, or answers with a legal outcome. -/
theorem everyStepKeepsTheInvariant : Obligations.EveryStepKeepsTheInvariant := by
  intro s t hinv hstep
  have hcount := hinv.1
  rcases step_cases s with ⟨-, h⟩ | ⟨n, rest, -, hn, h⟩ | ⟨input, rest, r, -, hanswers, h⟩ <;>
    rw [h] at hstep <;> cases hstep
  · exact hinv
  · exact inv_of_rsp_none _ (fun _ => by rcases hn with rfl | rfl <;> simp) rfl
  · refine inv_respond _ r hcount ?_ ?_
    all_goals cases hanswers with
    | refusedReset | unconfigured => simp [Response.legal]
    | configured r hconf => simp [hconf, legal_responseTo _ r (hcount hconf)]

end Sys2Proof.Machine

/-! The host's functions (R105, R106, R131 to R133, R147): the reply pipelines, the two retry loops and the status read. -/

namespace Sys2Proof.Machine

/-! ### Reply pipelines -/

theorem replyNumber_of_err {k : Option Nat} {buf : Bytes} {e : ErrKind} (h : respDecText buf = .err e) :
    replyNumber k buf = .err e := by
  rw [replyNumber, h]

theorem replyNumber_of_text {k : Option Nat} {buf : Bytes} {txt : Str} (h : respDecText buf = .ok (.text txt)) :
    replyNumber k buf = respDecFloat txt k := by
  rw [replyNumber, h]

/-- Settles O46: DEC_TEXT is the first stage of each text pipeline, and its error decides. -/
theorem highByteDecidesEveryTextPipeline : Obligations.HighByteDecidesEveryTextPipeline := by
  intro kind pre post b hkind hpre hb
  have herr := respDecText_of_high pre post b hpre hb
  cases kind with
  | text => exact herr
  | voltage | current => exact replyNumber_of_err herr
  | status => exact absurd rfl hkind

/-- 7-bit bytes behind do not change where the first high byte stands. -/
theorem firstHigh_append_sevenBit (l r : Bytes) (i : Nat) (hr : ∀ b ∈ r, b.toNat ≤ 0x7F) :
    firstHigh (l ++ r) i = firstHigh l i := by
  induction l generalizing i with
  | nil => exact firstHigh_eq_none r i hr
  | cons b bs ih => rw [List.cons_append, firstHigh, firstHigh, ih]

/-- Texts that are the same once they are cut are read alike. -/
theorem respDecFloat_congr {s t : Str} {k : Option Nat} (h : truncateTo s k = truncateTo t k) :
    respDecFloat s k = respDecFloat t k := by
  rw [respDecFloat, respDecFloat, h]

/-- Settles O47: stripping keeps the five bytes, the noise holds no high byte, and the truncation cuts it off. -/
theorem noiseBehindACurrentReadingIsCutOff : Obligations.NoiseBehindACurrentReadingIsCutOff := by
  intro reading noise hlen hlast hnoise
  have hkept : keptBytes reading = reading := by simpa using keptBytes_append_nuls reading 0 hlast
  obtain ⟨n, hkeptNoise⟩ : ∃ n, keptBytes (reading ++ noise) = reading ++ noise.take n := by
    cases reading using List.reverseRecOn with
    | nil => cases hlen
    | append_singleton pre b => exact keptBytes_of_ne_nul pre noise b (by simpa using hlast)
  have hhigh := firstHigh_append_sevenBit reading (noise.take n) 0 fun b hb => hnoise b (List.mem_of_mem_take hb)
  rw [← hkeptNoise] at hhigh
  rcases respDecText_cases reading with ⟨i, hi, herr⟩ | ⟨hi, htext⟩ <;> rw [hkept] at hi
  · have herrNoise : respDecText (reading ++ noise) = .err (.decodeError i) := by rw [respDecText, hhigh, hi]
    exact (replyNumber_of_err herrNoise).trans (replyNumber_of_err herr).symm
  · have htextNoise : respDecText (reading ++ noise) = .ok (.text ((reading ++ noise.take n).map fun b => b.truncate 7)) := by
      rw [respDecText, hhigh, hi, hkeptNoise]
    rw [hkept] at htext
    refine (replyNumber_of_text htextNoise).trans (Eq.trans (respDecFloat_congr ?_) (replyNumber_of_text htext).symm)
    rw [List.map_append]
    exact List.take_append_of_le_length (by simp [hlen])

/-! ### Retry loops -/

theorem firstNonEmpty_empty_cons (n : Nat) (rest : List Bytes) : firstNonEmpty (n + 1) ([] :: rest) = firstNonEmpty n rest := rfl

theorem firstNonEmpty_reply_cons (n : Nat) {reply : Bytes} (rest : List Bytes) (h : reply ≠ []) :
    firstNonEmpty (n + 1) (reply :: rest) = some reply := if_neg h

/-- Settles O48: each empty read takes one of three attempts, and the first read that is not empty is the reply. -/
theorem transactionEndsWithTheFirstReply : Obligations.TransactionEndsWithTheFirstReply := by
  refine fun command reply rest hreply => ⟨?_, ?_, ?_, rfl⟩
  · rw [transact, firstNonEmpty_reply_cons 2 rest hreply]
  · rw [transact, firstNonEmpty_empty_cons 2, firstNonEmpty_reply_cons 1 rest hreply]
  · rw [transact, firstNonEmpty_empty_cons 2, firstNonEmpty_empty_cons 1, firstNonEmpty_reply_cons 0 rest hreply]

/-- Rejected attempts are passed over, each at the cost of one attempt. -/
theorem firstStatusByte_rejected (n : Nat) (rejected rest : List Bytes) (h : ∀ buf ∈ rejected, buf.length ≠ 1) :
    firstStatusByte n (rejected ++ rest) = firstStatusByte (n - rejected.length) rest := by
  induction rejected generalizing n with
  | nil => rfl
  | cons buf bufs ih =>
    cases n with
    | zero => rw [Nat.zero_sub]; rfl
    | succ n =>
      rw [List.cons_append, firstStatusByte_skip n buf _ (h buf List.mem_cons_self),
        ih n fun b hb => h b (List.mem_cons_of_mem buf hb), List.length_cons, Nat.add_sub_add_right]

/-- Settles O50: what is left of the three attempts behind the rejected ones decides. -/
theorem statusLoopEndsWithTheFirstSingleByte : Obligations.StatusLoopEndsWithTheFirstSingleByte := by
  refine fun rejected rest b hrejected => ⟨fun hlt => ?_, fun hle => ?_⟩
  · obtain ⟨n, hn⟩ : ∃ n, 3 - rejected.length = n + 1 := ⟨2 - rejected.length, by omega⟩
    rw [statusLoop, firstStatusByte_rejected 3 rejected _ hrejected, hn]
    rfl
  · rw [statusLoop, firstStatusByte_rejected 3 rejected _ hrejected, Nat.sub_eq_zero_of_le hle]
    rfl

/-! ### The status read -/

theorem statusQueries_length (count : BitVec 2) : (statusQueries count).length = 4 * count.toNat := by
  have length_queriesFrom (ch n : Nat) : (queriesFrom ch n).length = 4 * n := by
    induction n generalizing ch with
    | zero => rfl
    | succ n ih =>
      rw [queriesFrom, List.length_append, ih, channelQueries, List.length_cons, List.length_cons, List.length_cons,
        List.length_singleton]
      omega
  exact length_queriesFrom 1 count.toNat

/-- All that a status read behind a status byte can give: a record of the values of all the queries, or what the first query gave
that gave none. -/
theorem facadeStatus_cases (count : BitVec 2) (statusReads : List Bytes) (queryReads : List (List Bytes)) (sb : Byte)
    (hcount : count = 1#2 ∨ count = 2#2) (hloop : statusLoop statusReads = .ok sb) :
    (∃ vs : List Rat, vs.length = 4 * count.toNat ∧ (∀ n v, vs[n]? = some v → statusRead queryReads n = .ok (.rat v)) ∧
      facadeStatus count statusReads queryReads = .ok (.status (deviceStatus (statusFields count sb) vs))) ∨
    (∃ n < 4 * count.toNat, (∀ v, statusRead queryReads n ≠ .ok v) ∧ (∀ m < n, ∃ v, statusRead queryReads m = .ok v) ∧
      facadeStatus count statusReads queryReads = statusRead queryReads n) := by
  have hqueries := collectReads_cases count (statusQueries count) queryReads (statusRead queryReads)
    fun n q hq => queryNumber_eq_statusRead count queryReads n q hcount hq
  rw [statusQueries_length] at hqueries
  rcases hqueries with ⟨vs, hcollect, hlen, hvs⟩ | ⟨n, hn, hcollect, hfail, hbefore⟩
  · rcases respDecodeStatus_cases count sb vs with ⟨-, h⟩ | ⟨hne, -⟩
    · exact .inl ⟨vs, hlen, hvs, by simp only [facadeStatus, hloop, hcollect, h]⟩
    · exact absurd hlen hne
  · refine .inr ⟨n, hn, fun v hv => ?_, fun m hm => ?_, by simp only [facadeStatus, hloop, hcollect]⟩
    · obtain ⟨x, rfl⟩ := statusRead_ok queryReads n v hv
      exact hfail x hv
    · obtain ⟨x, hx⟩ := hbefore m hm
      exact ⟨_, hx⟩

/-- Settles O49: where all queries are `Ok` the record holds their values, and the first query that is not decides otherwise. -/
theorem statusReadIsAllOrNothing : Obligations.StatusReadIsAllOrNothing := by
  intro count statusReads queryReads hcount
  refine ⟨fun e he => by simp only [facadeStatus, he], fun sb hloop => ?_, fun v hv => ?_⟩
  · rcases facadeStatus_cases count statusReads queryReads sb hcount hloop with
      ⟨vs, hlen, hvs, h⟩ | ⟨n, hn, hfail, hbefore, h⟩
    · refine ⟨fun n hn _ hfail => ?_, fun _ => ⟨_, h, deviceStatus_channels_length count sb vs hcount hlen, rfl, rfl, rfl, rfl,
        fun c ch hch => ?_⟩⟩
      · exact absurd (hvs n _ (List.getElem?_eq_getElem (hlen ▸ hn))) (hfail _)
      · obtain ⟨hmode, hsv, hsc, hmv, hmc⟩ := assembleChannels_getElem? _ vs c ch hch
        exact ⟨hmode, hvs _ _ hsv, hvs _ _ hsc, hvs _ _ hmv, hvs _ _ hmc⟩
    · refine ⟨fun m hm hbeforeM hfailM => ?_, fun hall => ?_⟩
      · have hnot_lt : ¬ m < n := fun hlt => (hbefore m hlt).elim hfailM
        have hnot_gt : ¬ n < m := fun hlt => (hbeforeM n hlt).elim hfail
        rwa [show m = n by omega]
      · exact ((hall n hn).elim hfail).elim
  · rcases hloop : statusLoop statusReads with e | sb
    · simp only [facadeStatus, hloop] at hv
      cases hv
    · rcases facadeStatus_cases count statusReads queryReads sb hcount hloop with
        ⟨vs, hlen, hvs, h⟩ | ⟨n, hn, hfail, -, h⟩ <;> rw [h] at hv
      · cases hv
        exact ⟨⟨_, rfl, deviceStatus_channels_length count sb vs hcount hlen⟩, ⟨sb, rfl⟩,
          fun n hn => ⟨_, hvs n _ (List.getElem?_eq_getElem (hlen ▸ hn))⟩⟩
      · exact absurd hv (hfail v)

end Sys2Proof.Machine
